-- ==== Sys2Proof/Word.lean ====
section
/-! DEFINITION. The bit-vector types of the CHIP-8 core (spec 00_scope.md R6, 10_state.md R20). All quantities
are unsigned (R6); a vector's bit 0 is its least significant bit. -/

namespace Sys2Proof

/-- An 8-bit value: a general register, a timer, a memory byte, an immediate `kk` (R20, R71). -/
abbrev Byte := BitVec 8

/-- A 16-bit value: `pc`, `I`, a stack entry, an instruction word (R20, R70). -/
abbrev Word := BitVec 16

/-- A 4-bit field of an instruction word (R71). -/
abbrev Nibble := BitVec 4

/-- The 12-bit address field `nnn` (R71). -/
abbrev Addr := BitVec 12

/-- A register index: all 16 values are legal, so no register field can be out of range (R73). -/
abbrev Reg := BitVec 4

/-- Register 15, the flag register `VF` (R22). -/
abbrev VF : Reg := 0xF#4

/-- Register 0, the offset register of Jump with offset (R107). -/
abbrev V0 : Reg := 0x0#4

end Sys2Proof
end

