-- ==== Sys2Proof/Machine/Flags.lean ====
section
/-! DEFINITION. What the flag-writing instructions write to V[15] (spec 10_state.md R22): always exactly 0 or 1. -/

namespace Sys2Proof.Machine

/-- A condition as the byte 1 or 0 (R22). -/
def flagByte (b : Bool) : Byte := if b then 1 else 0

/-- Add register: carry out of bit 7, 1 if the sum exceeds 255 (R126). -/
def carryFlag (a b : Byte) : Byte := flagByte (decide (a.toNat + b.toNat > 255))

/-- Sub register and Subn register: 1 if the minuend is strictly greater than the subtrahend, unsigned (R127, R129,
C2). -/
def notBorrowFlag (minuend subtrahend : Byte) : Byte := flagByte (decide (minuend.toNat > subtrahend.toNat))

/-- Shift right: the bit about to be shifted out, bit 0 (R128). -/
def shiftRightFlag (a : Byte) : Byte := flagByte (a.getLsbD 0)

/-- Shift left: the bit about to be shifted out, bit 7, as 0 or 1 (R130). -/
def shiftLeftFlag (a : Byte) : Byte := flagByte (a.getLsbD 7)

/-- Draw sprite: 1 if a set sprite bit met a pixel that was on (R151). -/
def collisionFlag (hit : Bool) : Byte := flagByte hit

end Sys2Proof.Machine
end

