-- ==== Sys2Proof/Syntax.lean ====
section
/-! DEFINITION. The closed set of 34 instructions (spec 00_scope.md R2, 30_encoding.md R75), one constructor per row
of spec/opcode_table.json, named as the decode function of R74 names them. A field the decoder ignores
(R78) is kept as an operand named `u` (or the unused `y` of the shifts), so that the term is the whole word. -/

namespace Sys2Proof

inductive Instr where
  /-- `0-E0` Clear display (R150); `u` is the ignored op[11:8]. -/
  | clearDisplay (u : Nibble)
  /-- `0-EE` Return (R100); `u` is the ignored op[11:8]. -/
  | ret (u : Nibble)
  /-- `1nnn` Jump (R101). -/
  | jump (nnn : Addr)
  /-- `2nnn` Call (R102). -/
  | call (nnn : Addr)
  /-- `3xkk` Skip-if-equal immediate (R103). -/
  | skipEqImm (x : Reg) (kk : Byte)
  /-- `4xkk` Skip-if-not-equal immediate (R104). -/
  | skipNeImm (x : Reg) (kk : Byte)
  /-- `5xy-` Skip-if-equal register (R105); `u` is the ignored op[3:0]. -/
  | skipEqReg (x y : Reg) (u : Nibble)
  /-- `6xkk` Load immediate (R120). -/
  | loadImm (x : Reg) (kk : Byte)
  /-- `7xkk` Add immediate (R121). -/
  | addImm (x : Reg) (kk : Byte)
  /-- `8xy0` Load register (R122). -/
  | loadReg (x y : Reg)
  /-- `8xy1` Or register (R123). -/
  | orReg (x y : Reg)
  /-- `8xy2` And register (R124). -/
  | andReg (x y : Reg)
  /-- `8xy3` Xor register (R125). -/
  | xorReg (x y : Reg)
  /-- `8xy4` Add register (R126). -/
  | addReg (x y : Reg)
  /-- `8xy5` Sub register (R127). -/
  | subReg (x y : Reg)
  /-- `8x-6` Shift right (R128); `y` is the ignored op[7:4]. -/
  | shiftRight (x y : Reg)
  /-- `8xy7` Subn register (R129). -/
  | subnReg (x y : Reg)
  /-- `8x-E` Shift left (R130); `y` is the ignored op[7:4]. -/
  | shiftLeft (x y : Reg)
  /-- `9xy-` Skip-if-not-equal register (R106); `u` is the ignored op[3:0]. -/
  | skipNeReg (x y : Reg) (u : Nibble)
  /-- `Annn` Load index immediate (R140). -/
  | loadIndexImm (nnn : Addr)
  /-- `Bnnn` Jump with offset (R107). -/
  | jumpOffset (nnn : Addr)
  /-- `Cxkk` Random (R131). -/
  | random (x : Reg) (kk : Byte)
  /-- `Dxyn` Draw sprite (R151). -/
  | drawSprite (x y : Reg) (n : Nibble)
  /-- `Ex9E` Skip-if-key-pressed (R160). -/
  | skipKeyPressed (x : Reg)
  /-- `ExA1` Skip-if-key-not-pressed (R161). -/
  | skipKeyNotPressed (x : Reg)
  /-- `Fx07` Load from delay timer (R162). -/
  | loadFromDelay (x : Reg)
  /-- `Fx0A` Wait for key (R163). -/
  | waitKey (x : Reg)
  /-- `Fx15` Set delay timer (R164). -/
  | setDelay (x : Reg)
  /-- `Fx18` Set sound timer (R165). -/
  | setSound (x : Reg)
  /-- `Fx1E` Add to index (R141). -/
  | addIndex (x : Reg)
  /-- `Fx29` Load sprite address (R142). -/
  | loadSpriteAddr (x : Reg)
  /-- `Fx33` Store BCD (R143). -/
  | storeBcd (x : Reg)
  /-- `Fx55` Store registers (R144). -/
  | storeRegs (x : Reg)
  /-- `Fx65` Load registers (R145). -/
  | loadRegs (x : Reg)
deriving DecidableEq, Repr

end Sys2Proof
end

