-- ==== Sys2Proof/WellFormed.lean ====
section
/-! DEFINITION. The canonical spelling of an instruction (spec 30_encoding.md R78): "An assembler emits the canonical
spelling; a disassembler shows any spelling as the same instruction." Every other requirement on an operand
(R73) is carried by the operand's type. Nothing of the machine consults these checks: a non-canonical term
runs like its canonical one (log 16, log 24). -/

namespace Sys2Proof

/-- Every ignored field of the instruction is 0 (R78 (a), (b), (c)). -/
def Instr.wellFormed : Instr → Bool
  | .clearDisplay u => u == 0
  | .ret u => u == 0
  | .skipEqReg _ _ u => u == 0
  | .skipNeReg _ _ u => u == 0
  | .shiftRight _ y => y == 0
  | .shiftLeft _ y => y == 0
  | .jump _ | .call _ | .skipEqImm _ _ | .skipNeImm _ _ | .loadImm _ _ | .addImm _ _ | .loadReg _ _ | .orReg _ _
  | .andReg _ _ | .xorReg _ _ | .addReg _ _ | .subReg _ _ | .subnReg _ _ | .loadIndexImm _ | .jumpOffset _
  | .random _ _ | .drawSprite _ _ _ | .skipKeyPressed _ | .skipKeyNotPressed _ | .loadFromDelay _ | .waitKey _
  | .setDelay _ | .setSound _ | .addIndex _ | .loadSpriteAddr _ | .storeBcd _ | .storeRegs _ | .loadRegs _ => true

/-- The canonical spelling of the same instruction: every ignored field set to 0 (R78). -/
def Instr.canonical : Instr → Instr
  | .clearDisplay _ => .clearDisplay 0
  | .ret _ => .ret 0
  | .skipEqReg x y _ => .skipEqReg x y 0
  | .skipNeReg x y _ => .skipNeReg x y 0
  | .shiftRight x _ => .shiftRight x 0
  | .shiftLeft x _ => .shiftLeft x 0
  | .jump nnn => .jump nnn
  | .call nnn => .call nnn
  | .skipEqImm x kk => .skipEqImm x kk
  | .skipNeImm x kk => .skipNeImm x kk
  | .loadImm x kk => .loadImm x kk
  | .addImm x kk => .addImm x kk
  | .loadReg x y => .loadReg x y
  | .orReg x y => .orReg x y
  | .andReg x y => .andReg x y
  | .xorReg x y => .xorReg x y
  | .addReg x y => .addReg x y
  | .subReg x y => .subReg x y
  | .subnReg x y => .subnReg x y
  | .loadIndexImm nnn => .loadIndexImm nnn
  | .jumpOffset nnn => .jumpOffset nnn
  | .random x kk => .random x kk
  | .drawSprite x y n => .drawSprite x y n
  | .skipKeyPressed x => .skipKeyPressed x
  | .skipKeyNotPressed x => .skipKeyNotPressed x
  | .loadFromDelay x => .loadFromDelay x
  | .waitKey x => .waitKey x
  | .setDelay x => .setDelay x
  | .setSound x => .setSound x
  | .addIndex x => .addIndex x
  | .loadSpriteAddr x => .loadSpriteAddr x
  | .storeBcd x => .storeBcd x
  | .storeRegs x => .storeRegs x
  | .loadRegs x => .loadRegs x

end Sys2Proof
end

