-- ==== Sys2Proof/Decode.lean ====
section
/-! DEFINITION. The instruction fields, the decoder, the encoder, the opcode map and the assembler spelling (spec
30_encoding.md R70 to R80). -/

namespace Sys2Proof

/-! ## Fields (R71) -/

/-- The family selector, the top nibble `op[15:12]` (R71). -/
def fieldFam (op : Word) : Nibble := op.extractLsb' 12 4

/-- `x = op[11:8]` (R71). -/
def fieldX (op : Word) : Reg := op.extractLsb' 8 4

/-- `y = op[7:4]` (R71). -/
def fieldY (op : Word) : Reg := op.extractLsb' 4 4

/-- `n = op[3:0]` (R71). -/
def fieldN (op : Word) : Nibble := op.extractLsb' 0 4

/-- `kk = op[7:0]` (R71). -/
def fieldKK (op : Word) : Byte := op.extractLsb' 0 8

/-- `nnn = op[11:0]` (R71). -/
def fieldNNN (op : Word) : Addr := op.extractLsb' 0 12

/-! ## Decode (R74) -/

/-- Second level of family 0: the low byte alone selects (R74, D11). -/
def decodeFamily0 (op : Word) : Option Instr :=
  if fieldKK op = 0xE0#8 then some (.clearDisplay (fieldX op))
  else if fieldKK op = 0xEE#8 then some (.ret (fieldX op))
  else none

/-- Second level of family 8: the low nibble selects (R74). -/
def decodeFamily8 (op : Word) : Option Instr :=
  let x := fieldX op
  let y := fieldY op
  if fieldN op = 0x0#4 then some (.loadReg x y)
  else if fieldN op = 0x1#4 then some (.orReg x y)
  else if fieldN op = 0x2#4 then some (.andReg x y)
  else if fieldN op = 0x3#4 then some (.xorReg x y)
  else if fieldN op = 0x4#4 then some (.addReg x y)
  else if fieldN op = 0x5#4 then some (.subReg x y)
  else if fieldN op = 0x6#4 then some (.shiftRight x y)
  else if fieldN op = 0x7#4 then some (.subnReg x y)
  else if fieldN op = 0xE#4 then some (.shiftLeft x y)
  else none

/-- Second level of family E: the low byte selects (R74). -/
def decodeFamilyE (op : Word) : Option Instr :=
  if fieldKK op = 0x9E#8 then some (.skipKeyPressed (fieldX op))
  else if fieldKK op = 0xA1#8 then some (.skipKeyNotPressed (fieldX op))
  else none

/-- Second level of family F: the low byte selects (R74). -/
def decodeFamilyF (op : Word) : Option Instr :=
  let x := fieldX op
  if fieldKK op = 0x07#8 then some (.loadFromDelay x)
  else if fieldKK op = 0x0A#8 then some (.waitKey x)
  else if fieldKK op = 0x15#8 then some (.setDelay x)
  else if fieldKK op = 0x18#8 then some (.setSound x)
  else if fieldKK op = 0x1E#8 then some (.addIndex x)
  else if fieldKK op = 0x29#8 then some (.loadSpriteAddr x)
  else if fieldKK op = 0x33#8 then some (.storeBcd x)
  else if fieldKK op = 0x55#8 then some (.storeRegs x)
  else if fieldKK op = 0x65#8 then some (.loadRegs x)
  else none

/-- The two-level decode of R74, total on words; `none` is the `Unknown` of R77. -/
def decode (op : Word) : Option Instr :=
  let fam := fieldFam op
  if fam = 0x0#4 then decodeFamily0 op
  else if fam = 0x1#4 then some (.jump (fieldNNN op))
  else if fam = 0x2#4 then some (.call (fieldNNN op))
  else if fam = 0x3#4 then some (.skipEqImm (fieldX op) (fieldKK op))
  else if fam = 0x4#4 then some (.skipNeImm (fieldX op) (fieldKK op))
  else if fam = 0x5#4 then some (.skipEqReg (fieldX op) (fieldY op) (fieldN op))
  else if fam = 0x6#4 then some (.loadImm (fieldX op) (fieldKK op))
  else if fam = 0x7#4 then some (.addImm (fieldX op) (fieldKK op))
  else if fam = 0x8#4 then decodeFamily8 op
  else if fam = 0x9#4 then some (.skipNeReg (fieldX op) (fieldY op) (fieldN op))
  else if fam = 0xA#4 then some (.loadIndexImm (fieldNNN op))
  else if fam = 0xB#4 then some (.jumpOffset (fieldNNN op))
  else if fam = 0xC#4 then some (.random (fieldX op) (fieldKK op))
  else if fam = 0xD#4 then some (.drawSprite (fieldX op) (fieldY op) (fieldN op))
  else if fam = 0xE#4 then decodeFamilyE op
  else decodeFamilyF op

/-- The word whose high byte is at the lower address: instruction fetch is big-endian (R54, R91). -/
def wordOfBytes (hi lo : Byte) : Word := hi ++ lo

/-- The byte of a word at the lower address, `op[15:8]` (R54). -/
def highByte (op : Word) : Byte := op.extractLsb' 8 8

/-- The byte of a word at the higher address, `op[7:0]` (R54). -/
def lowByte (op : Word) : Byte := op.extractLsb' 0 8

/-- Why a byte sequence is no instruction. -/
inductive DecodeError where
  /-- Fewer than the two bytes every instruction has (R70). -/
  | truncated
  /-- The word matches no row of the opcode map (R77): the condition `UnknownOpcode`. -/
  | unknownOpcode (op : Word)
deriving DecidableEq, Repr

/-- The decoder on any bytes: the instruction at their head and the bytes after it, or a rejection by name. -/
def decodeBytes : List Byte → Except DecodeError (Instr × List Byte)
  | hi :: lo :: rest =>
    match decode (wordOfBytes hi lo) with
    | some i => .ok (i, rest)
    | none => .error (.unknownOpcode (wordOfBytes hi lo))
  | _ => .error .truncated

/-- The word of an instruction given as the opcode table numbers its bits (bit 0 the least significant of the one
word); the bits above `nbits` are 0. -/
def tableWord (nbits w : Nat) : Word := BitVec.ofNat 16 (w % 2 ^ nbits)

/-- What the decoder reads from an instruction whose bits are `w`: its two bytes laid out as the hardware stores
them (R54) and given to `decodeBytes`. -/
def decodeTableWord (nbits w : Nat) : Option Instr :=
  match decodeBytes [highByte (tableWord nbits w), lowByte (tableWord nbits w)] with
  | .ok (i, _) => some i
  | .error _ => none

/-! ## Encode (R75) -/

/-- The word of an instruction, field by field from the pattern column of R75. -/
def encode : Instr → Word
  | .clearDisplay u => 0x0#4 ++ u ++ 0xE0#8
  | .ret u => 0x0#4 ++ u ++ 0xEE#8
  | .jump nnn => 0x1#4 ++ nnn
  | .call nnn => 0x2#4 ++ nnn
  | .skipEqImm x kk => 0x3#4 ++ x ++ kk
  | .skipNeImm x kk => 0x4#4 ++ x ++ kk
  | .skipEqReg x y u => 0x5#4 ++ x ++ y ++ u
  | .loadImm x kk => 0x6#4 ++ x ++ kk
  | .addImm x kk => 0x7#4 ++ x ++ kk
  | .loadReg x y => 0x8#4 ++ x ++ y ++ 0x0#4
  | .orReg x y => 0x8#4 ++ x ++ y ++ 0x1#4
  | .andReg x y => 0x8#4 ++ x ++ y ++ 0x2#4
  | .xorReg x y => 0x8#4 ++ x ++ y ++ 0x3#4
  | .addReg x y => 0x8#4 ++ x ++ y ++ 0x4#4
  | .subReg x y => 0x8#4 ++ x ++ y ++ 0x5#4
  | .shiftRight x y => 0x8#4 ++ x ++ y ++ 0x6#4
  | .subnReg x y => 0x8#4 ++ x ++ y ++ 0x7#4
  | .shiftLeft x y => 0x8#4 ++ x ++ y ++ 0xE#4
  | .skipNeReg x y u => 0x9#4 ++ x ++ y ++ u
  | .loadIndexImm nnn => 0xA#4 ++ nnn
  | .jumpOffset nnn => 0xB#4 ++ nnn
  | .random x kk => 0xC#4 ++ x ++ kk
  | .drawSprite x y n => 0xD#4 ++ x ++ y ++ n
  | .skipKeyPressed x => 0xE#4 ++ x ++ 0x9E#8
  | .skipKeyNotPressed x => 0xE#4 ++ x ++ 0xA1#8
  | .loadFromDelay x => 0xF#4 ++ x ++ 0x07#8
  | .waitKey x => 0xF#4 ++ x ++ 0x0A#8
  | .setDelay x => 0xF#4 ++ x ++ 0x15#8
  | .setSound x => 0xF#4 ++ x ++ 0x18#8
  | .addIndex x => 0xF#4 ++ x ++ 0x1E#8
  | .loadSpriteAddr x => 0xF#4 ++ x ++ 0x29#8
  | .storeBcd x => 0xF#4 ++ x ++ 0x33#8
  | .storeRegs x => 0xF#4 ++ x ++ 0x55#8
  | .loadRegs x => 0xF#4 ++ x ++ 0x65#8

/-- The bytes of an instruction as the hardware stores them, the high byte at the lower address (R54, R70). -/
def encodeBytes (i : Instr) : List Byte := [highByte (encode i), lowByte (encode i)]

/-! ## The opcode map as data (R75) -/

/-- One row of R75: its number, the source's identity, and the match and mask words. -/
structure OpcodeRow where
  num : Nat
  identity : String
  bits : Word
  mask : Word
deriving DecidableEq, Repr

/-- The row of R75 an instruction belongs to. -/
def Instr.row : Instr → OpcodeRow
  | .clearDisplay _ => ⟨1, "Clear display", 0x00E0, 0xF0FF⟩
  | .ret _ => ⟨2, "Return", 0x00EE, 0xF0FF⟩
  | .jump _ => ⟨3, "Jump", 0x1000, 0xF000⟩
  | .call _ => ⟨4, "Call", 0x2000, 0xF000⟩
  | .skipEqImm _ _ => ⟨5, "Skip-if-equal immediate", 0x3000, 0xF000⟩
  | .skipNeImm _ _ => ⟨6, "Skip-if-not-equal immediate", 0x4000, 0xF000⟩
  | .skipEqReg _ _ _ => ⟨7, "Skip-if-equal register", 0x5000, 0xF000⟩
  | .loadImm _ _ => ⟨8, "Load immediate", 0x6000, 0xF000⟩
  | .addImm _ _ => ⟨9, "Add immediate", 0x7000, 0xF000⟩
  | .loadReg _ _ => ⟨10, "Load register", 0x8000, 0xF00F⟩
  | .orReg _ _ => ⟨11, "Or register", 0x8001, 0xF00F⟩
  | .andReg _ _ => ⟨12, "And register", 0x8002, 0xF00F⟩
  | .xorReg _ _ => ⟨13, "Xor register", 0x8003, 0xF00F⟩
  | .addReg _ _ => ⟨14, "Add register", 0x8004, 0xF00F⟩
  | .subReg _ _ => ⟨15, "Sub register", 0x8005, 0xF00F⟩
  | .shiftRight _ _ => ⟨16, "Shift right", 0x8006, 0xF00F⟩
  | .subnReg _ _ => ⟨17, "Subn register", 0x8007, 0xF00F⟩
  | .shiftLeft _ _ => ⟨18, "Shift left", 0x800E, 0xF00F⟩
  | .skipNeReg _ _ _ => ⟨19, "Skip-if-not-equal register", 0x9000, 0xF000⟩
  | .loadIndexImm _ => ⟨20, "Load index immediate", 0xA000, 0xF000⟩
  | .jumpOffset _ => ⟨21, "Jump with offset", 0xB000, 0xF000⟩
  | .random _ _ => ⟨22, "Random", 0xC000, 0xF000⟩
  | .drawSprite _ _ _ => ⟨23, "Draw sprite", 0xD000, 0xF000⟩
  | .skipKeyPressed _ => ⟨24, "Skip-if-key-pressed", 0xE09E, 0xF0FF⟩
  | .skipKeyNotPressed _ => ⟨25, "Skip-if-key-not-pressed", 0xE0A1, 0xF0FF⟩
  | .loadFromDelay _ => ⟨26, "Load from delay timer", 0xF007, 0xF0FF⟩
  | .waitKey _ => ⟨27, "Wait for key", 0xF00A, 0xF0FF⟩
  | .setDelay _ => ⟨28, "Set delay timer", 0xF015, 0xF0FF⟩
  | .setSound _ => ⟨29, "Set sound timer", 0xF018, 0xF0FF⟩
  | .addIndex _ => ⟨30, "Add to index", 0xF01E, 0xF0FF⟩
  | .loadSpriteAddr _ => ⟨31, "Load sprite address", 0xF029, 0xF0FF⟩
  | .storeBcd _ => ⟨32, "Store BCD", 0xF033, 0xF0FF⟩
  | .storeRegs _ => ⟨33, "Store registers", 0xF055, 0xF0FF⟩
  | .loadRegs _ => ⟨34, "Load registers", 0xF065, 0xF0FF⟩

/-- The 34 rows of R75 in the table's order. -/
def opcodeMap : List OpcodeRow :=
  ([.clearDisplay 0, .ret 0, .jump 0, .call 0, .skipEqImm 0 0, .skipNeImm 0 0, .skipEqReg 0 0 0] : List Instr).map Instr.row ++
  ([.loadImm 0 0, .addImm 0 0, .loadReg 0 0, .orReg 0 0, .andReg 0 0, .xorReg 0 0, .addReg 0 0] : List Instr).map Instr.row ++
  ([.subReg 0 0, .shiftRight 0 0, .subnReg 0 0, .shiftLeft 0 0, .skipNeReg 0 0 0, .loadIndexImm 0] : List Instr).map Instr.row ++
  ([.jumpOffset 0, .random 0 0, .drawSprite 0 0 0, .skipKeyPressed 0, .skipKeyNotPressed 0] : List Instr).map Instr.row ++
  ([.loadFromDelay 0, .waitKey 0, .setDelay 0, .setSound 0, .addIndex 0, .loadSpriteAddr 0] : List Instr).map Instr.row ++
  ([.storeBcd 0, .storeRegs 0, .loadRegs 0] : List Instr).map Instr.row

/-! ## Assembler spelling (R80, D27; log 26) -/

/-- One hexadecimal digit. -/
def hexDigit (d : Nibble) : String :=
  ["0", "1", "2", "3", "4", "5", "6", "7", "8", "9", "A", "B", "C", "D", "E", "F"].getD d.toNat ""

/-- A byte as `0x` and two digits. -/
def hexByte (b : Byte) : String := "0x" ++ hexDigit (b.extractLsb' 4 4) ++ hexDigit (b.extractLsb' 0 4)

/-- An address as `0x` and three digits. -/
def hexAddr (a : Addr) : String :=
  "0x" ++ hexDigit (a.extractLsb' 8 4) ++ hexDigit (a.extractLsb' 4 4) ++ hexDigit (a.extractLsb' 0 4)

/-- A register as `V0` to `VF` (R10). -/
def regName (x : Reg) : String := "V" ++ hexDigit x

/-- The canonical assembler text of an instruction, from R75's column "mnemonic and syntax"; ignored fields are not
shown, so any spelling is shown as the same instruction (R78). -/
def Instr.asm : Instr → String
  | .clearDisplay _ => "CLS"
  | .ret _ => "RET"
  | .jump nnn => "JP " ++ hexAddr nnn
  | .call nnn => "CALL " ++ hexAddr nnn
  | .skipEqImm x kk => "SE " ++ regName x ++ ", " ++ hexByte kk
  | .skipNeImm x kk => "SNE " ++ regName x ++ ", " ++ hexByte kk
  | .skipEqReg x y _ => "SE " ++ regName x ++ ", " ++ regName y
  | .loadImm x kk => "LD " ++ regName x ++ ", " ++ hexByte kk
  | .addImm x kk => "ADD " ++ regName x ++ ", " ++ hexByte kk
  | .loadReg x y => "LD " ++ regName x ++ ", " ++ regName y
  | .orReg x y => "OR " ++ regName x ++ ", " ++ regName y
  | .andReg x y => "AND " ++ regName x ++ ", " ++ regName y
  | .xorReg x y => "XOR " ++ regName x ++ ", " ++ regName y
  | .addReg x y => "ADD " ++ regName x ++ ", " ++ regName y
  | .subReg x y => "SUB " ++ regName x ++ ", " ++ regName y
  | .shiftRight x _ => "SHR " ++ regName x
  | .subnReg x y => "SUBN " ++ regName x ++ ", " ++ regName y
  | .shiftLeft x _ => "SHL " ++ regName x
  | .skipNeReg x y _ => "SNE " ++ regName x ++ ", " ++ regName y
  | .loadIndexImm nnn => "LD I, " ++ hexAddr nnn
  | .jumpOffset nnn => "JP V0, " ++ hexAddr nnn
  | .random x kk => "RND " ++ regName x ++ ", " ++ hexByte kk
  | .drawSprite x y n => "DRW " ++ regName x ++ ", " ++ regName y ++ ", 0x" ++ hexDigit n
  | .skipKeyPressed x => "SKP " ++ regName x
  | .skipKeyNotPressed x => "SKNP " ++ regName x
  | .loadFromDelay x => "LD " ++ regName x ++ ", DT"
  | .waitKey x => "LD " ++ regName x ++ ", K"
  | .setDelay x => "LD DT, " ++ regName x
  | .setSound x => "LD ST, " ++ regName x
  | .addIndex x => "ADD I, " ++ regName x
  | .loadSpriteAddr x => "LD F, " ++ regName x
  | .storeBcd x => "LD B, " ++ regName x
  | .storeRegs x => "LD [I], " ++ regName x
  | .loadRegs x => "LD " ++ regName x ++ ", [I]"

end Sys2Proof
end

