-- ==== Sys2Proof/Config.lean ====
section
/-! DEFINITION. The free values of the model: the keypad samples and the random bytes the host supplies (spec
10_state.md R27, R31). What the architecture fixes (00_scope.md R5) is in the types and the rules' own numbers; the
two parameters R5 leaves OPEN, FONT_BASE and FONT_TABLE, are data of the machine's font ROM (Machine/State.lean, log 1
and 2). -/

namespace Sys2Proof

/-- FREE VALUE (log 3). `Config.keysIn k` is the keypad sample the host writes for the k-th step whose sample is
not named in the state's list of pending inputs: "assumes nothing about it, not even that it equals the
previous sample" (R27, D23, U8). -/
opaque Config.keysIn : Nat → BitVec 16

/-- FREE VALUE (log 3). `Config.rndIn k` is the random byte the host supplies with that sample: "a draw, under no
law" (R31, D3, U7). -/
opaque Config.rndIn : Nat → BitVec 8

end Sys2Proof
end

