-- ==== Sys2Proof/Machine/Font.lean ====
section
/-! DEFINITION. The defaults of the two parameters the spec leaves OPEN: FONT_BASE and FONT_TABLE (spec 00_scope.md R5,
20_memory.md R51, R52, 92_eei_decisions.md D1, D2). They stand here, apart from the state, because they are the
spec's defaults "from general knowledge, not in source": the machine's rules are written for every font ROM. -/

namespace Sys2Proof.Machine

/-- Default of FONT_BASE. PRESUMED (log 1): 0x050, unsafe for a claim at State.reset that names a font address. -/
def defaultFontBase : Fin 433 := 0x050

/-- Default of FONT_TABLE, glyphs 0 to 7 (R52). PRESUMED (log 2), unsafe for a claim at State.reset that names a
font byte. -/
def defaultGlyphsLow : List Byte :=
  [0xF0, 0x90, 0x90, 0x90, 0xF0] ++ [0x20, 0x60, 0x20, 0x20, 0x70] ++
  [0xF0, 0x10, 0xF0, 0x80, 0xF0] ++ [0xF0, 0x10, 0xF0, 0x10, 0xF0] ++
  [0x90, 0x90, 0xF0, 0x10, 0x10] ++ [0xF0, 0x80, 0xF0, 0x10, 0xF0] ++
  [0xF0, 0x80, 0xF0, 0x90, 0xF0] ++ [0xF0, 0x10, 0x20, 0x40, 0x40]

/-- Default of FONT_TABLE, glyphs 8 to F (R52). PRESUMED (log 2), as `defaultGlyphsLow`. -/
def defaultGlyphsHigh : List Byte :=
  [0xF0, 0x90, 0xF0, 0x90, 0xF0] ++ [0xF0, 0x90, 0xF0, 0x10, 0xF0] ++
  [0xF0, 0x90, 0xF0, 0x90, 0x90] ++ [0xE0, 0x90, 0xE0, 0x90, 0xE0] ++
  [0xF0, 0x80, 0x80, 0x80, 0xF0] ++ [0xE0, 0x90, 0x90, 0x90, 0xE0] ++
  [0xF0, 0x80, 0xF0, 0x80, 0xF0] ++ [0xF0, 0x80, 0xF0, 0x80, 0x80]

/-- Default of FONT_TABLE, byte by byte: 16 glyphs of 5 bytes (R52). -/
def defaultGlyphs : Vector Byte 80 :=
  Vector.ofFn fun k => (defaultGlyphsLow ++ defaultGlyphsHigh).getD k.val 0

end Sys2Proof.Machine
end

