-- ==== Sys2Proof/Machine/State.lean ====
section
/-! DEFINITION. The state of the core (spec 10_state.md R20), plain data, and its value after reset (R33,
70_reset_and_hazards.md R200). -/

namespace Sys2Proof.Machine

/-- The causes of the synchronous faults (spec 60_exceptions.md R170), the type of the fault record's `cause`.
The spec gives a fault's entry an effect (it writes the record, R95, R180), so a fault is a NEXT state of the
model and no step, and no instruction, answers the outcome `.fault` with one of these (log 7). -/
inductive Fault where
  /-- Code 1 (R174): raised by the fetch of a step whose `pc` is above 0xFFE. Safe (D6). -/
  | fetchOutOfRange
  /-- Code 2 (R171): raised by decode on a word of no row of the opcode map. Safe (D4). -/
  | unknownOpcode
  /-- Code 3 (R172), a StackFault: raised by Call with SP = 16. Safe (D5). -/
  | stackOverflow
  /-- Code 4 (R173), a StackFault: raised by Return with SP = 0. Safe (D5). -/
  | stackUnderflow
  /-- Code 5 (R175): raised by Draw sprite, Store BCD, Store registers and Load registers when their highest
  address is above 0xFFF. Safe (D6). -/
  | dataAddressOutOfRange
  /-- Code 6 (R176): raised by Store BCD and Store registers on a byte of the font table. Safe (D15). -/
  | fontWrite
  /-- Code 7 (R177): raised by the two key skips when V[x] is above 15. Safe (D14). -/
  | keyIndexOutOfRange
deriving DecidableEq, Repr

/-- The reasons the model gives no next state. -/
inductive Refusal where
  /-- Raised by `exec`'s arm of an instruction that has no meaning yet; no arm is left so. Safe. -/
  | notModelled (mnemonic : String)
  /-- Raised by the host's `load` event on an image of more than 3584 bytes: "reject the image, do not start the
  machine" (R178, R201). It is the spec's own answer, and no step raises it. Safe. -/
  | imageTooLarge
deriving DecidableEq, Repr

/-- The record a faulting step writes (R30): the cause, the address of the faulting instruction, and the fetched
word, or 0 where no word could be fetched. -/
structure FaultRecord where
  cause : Fault
  faultPc : Word
  faultOp : Word
deriving DecidableEq, Repr

/-- The font ROM: the parameters FONT_BASE, with `FONT_BASE + 80 <= 0x200` in its type, and FONT_TABLE (R5, R51,
R52). Carried as read-only data, so that a statement about every state holds for every font (log 1). -/
structure FontRom where
  base : Fin 433
  glyphs : Vector Byte 80
deriving DecidableEq, Repr

/-- `Mem` (R29, R50): the font ROM, which fixes the contents after reset, and the bytes that differ from those
contents, addresses rising (log 20). -/
structure Memory where
  rom : FontRom
  cells : List Host.Cell
deriving DecidableEq, Repr

/-- `FB` (R28): 32 rows of 64 pixels, `true` for on. -/
abbrev FrameBuffer := Vector (Vector Bool 64) 32

/-- What the host offers for one step: the keypad sample and the random byte (R34 `keys_in`, `rnd_in`). -/
structure StepInput where
  keys : Word
  rnd : Byte
deriving DecidableEq, Repr

/-- The complete state of the core (R20), and after `fault` the model's own fields that carry the inputs of the
coming steps (log 3). -/
structure State where
  /-- `V[0..15]` (R21, R22). -/
  V : Vector Byte 16
  /-- The program counter (R23). -/
  pc : Word
  /-- The index register (R24). -/
  I : Word
  /-- The return stack `S[0..15]` (R25). -/
  stack : Vector Word 16
  /-- The stack pointer, 0 when empty and 16 when full (R25). -/
  sp : Fin 17
  /-- The delay timer (R26). -/
  DT : Byte
  /-- The sound timer (R26). -/
  ST : Byte
  /-- `K`, bit `k` for key `k`, 1 when pressed: the sample of the coming step (R27, R34). -/
  keys : Word
  /-- The framebuffer (R28). -/
  fb : FrameBuffer
  /-- The memory (R29). -/
  mem : Memory
  /-- The fault record, or none (R30). -/
  fault : Option FaultRecord
  /-- MODEL'S OWN: the random byte `rnd` of the coming step (R31, R34). -/
  rnd : Byte
  /-- MODEL'S OWN: the host's samples for the steps after the coming one, first one first. -/
  inputs : List StepInput
  /-- MODEL'S OWN: counts the samples taken; the argument of the free values once `inputs` is used up. -/
  inputIndex : Nat
deriving DecidableEq, Repr

/-- The state after reset of a machine with the given font ROM: all fields zero, the font table in place, `pc` at
0x200, no fault (R33, R200). The last three fields are the model's own (log 4). -/
def State.resetWith (rom : FontRom) : State where
  V := Vector.replicate 16 0
  pc := 0x200
  I := 0
  stack := Vector.replicate 16 0
  sp := 0
  DT := 0
  ST := 0
  keys := 0
  fb := Vector.replicate 32 (Vector.replicate 64 false)
  mem := ⟨rom, []⟩
  fault := none
  rnd := 0
  inputs := []
  inputIndex := 0

/-- The machine right after reset (R33), with the spec's default font ROM (log 1, log 2). -/
def State.reset : State := State.resetWith ⟨defaultFontBase, defaultGlyphs⟩

end Sys2Proof.Machine
end

