-- ==== Sys2Proof/Machine/Ops.lean ====
section
/-! DEFINITION. The named operations over memory, registers, stack, timers and framebuffer, taking a fault, and the
host's events (spec 10_state.md, 20_memory.md, 40_cycle.md, 60_exceptions.md, 70_reset_and_hazards.md). -/

namespace Sys2Proof.Machine

/-! ## Memory -/

/-- The byte listed for an address, if one is. -/
def lookupCell : List Host.Cell → Nat → Option Byte
  | [], _ => none
  | (b, v) :: cs, a => if a = b then some v else lookupCell cs a

/-- List `v` for the address `a`, keeping the addresses rising. -/
def putCell : List Host.Cell → Nat → Byte → List Host.Cell
  | [], a, v => [(a, v)]
  | (b, w) :: cs, a, v =>
    if a < b then (a, v) :: (b, w) :: cs
    else if a = b then (a, v) :: cs
    else (b, w) :: putCell cs a v

/-- List nothing for the address `a`. -/
def dropCell : List Host.Cell → Nat → List Host.Cell
  | [], _ => []
  | (b, w) :: cs, a => if a = b then cs else (b, w) :: dropCell cs a

/-- Whether an address lies in the font table, `FONT_BASE` to `FONT_BASE + 79` (R51). -/
def Memory.inFont (m : Memory) (a : Nat) : Bool := decide (m.rom.base.val ≤ a ∧ a < m.rom.base.val + 80)

/-- What an address with no listed byte reads as: the reset contents, the font table's byte in the font table and
0 elsewhere (R33, R51). -/
def Memory.unlisted (m : Memory) (a : Nat) : Byte :=
  if h : m.rom.base.val ≤ a ∧ a < m.rom.base.val + 80 then
    m.rom.glyphs[a - m.rom.base.val]'(by omega)
  else 0

/-- `MemRead(a, 1)` (R53): the byte at `a`. Every caller checks `a` against 0xFFF first (R146, R91; log 20). -/
def Memory.read (m : Memory) (a : Nat) : Byte := (lookupCell m.cells a).getD (m.unlisted a)

/-- `MemWrite(a, 1, v)` (R53), keeping the canonical form. Callers check the address and the font table first
(R146); reset and the loader write without a font check (R201). -/
def Memory.write (m : Memory) (a : Nat) (v : Byte) : Memory :=
  { m with cells := if v = m.unlisted a then dropCell m.cells a else putCell m.cells a v }

/-- Single-byte writes to `a`, `a + 1`, ... in that order (R56). -/
def Memory.writeBytes (m : Memory) (a : Nat) : List Byte → Memory
  | [] => m
  | v :: vs => (m.write a v).writeBytes (a + 1) vs

/-- The `n` single-byte reads from `a`, `a + 1`, ... (R56). -/
def Memory.readBytes (m : Memory) (a n : Nat) : List Byte := (List.range n).map fun k => m.read (a + k)

/-- The canonical form: listed addresses strictly rise, lie in the memory (R50), and no listed byte equals what the
address reads as when unlisted. -/
abbrev Memory.wf (m : Memory) : Prop :=
  m.cells.Pairwise (fun p q => p.1 < q.1) ∧ ∀ c ∈ m.cells, c.1 < 4096 ∧ c.2 ≠ m.unlisted c.1

/-! ## General registers (R21) -/

/-- `V[x]`. -/
def State.getV (s : State) (x : Reg) : Byte := s.V[x.toNat]'x.isLt

/-- `V[x] <- v`. -/
def State.setV (s : State) (x : Reg) (v : Byte) : State := { s with V := s.V.set x.toNat v x.isLt }

/-- `V[i] <- v_0, V[i+1] <- v_1, ...` in that order (R145). -/
def State.setRegs (s : State) (i : Nat) : List Byte → State
  | [] => s
  | v :: vs => (s.setV (BitVec.ofNat 4 i) v).setRegs (i + 1) vs

/-! ## The return stack (R25) -/

/-- `S[SP] <- w; SP <- SP + 1`, unless the stack is full (R102). -/
def State.push (s : State) (w : Word) : Option State :=
  if h : s.sp.val < 16 then
    some { s with stack := s.stack.set s.sp.val w h, sp := ⟨s.sp.val + 1, by omega⟩ }
  else none

/-- `SP <- SP - 1` and the entry `S[SP]`, which stays in place, unless the stack is empty (R100, R25). -/
def State.pop (s : State) : Option (Word × State) :=
  if h : 0 < s.sp.val then
    some (s.stack[s.sp.val - 1]'(by omega), { s with sp := ⟨s.sp.val - 1, by omega⟩ })
  else none

/-! ## The framebuffer (R28) -/

/-- `FB[r][c]`; off outside the grid. -/
def FrameBuffer.pixel (fb : FrameBuffer) (r c : Nat) : Bool :=
  if h : r < 32 ∧ c < 64 then (fb[r]'h.1)[c]'h.2 else false

/-- `FB[r][c] <- FB[r][c] xor 1`; nothing outside the grid. -/
def FrameBuffer.toggle (fb : FrameBuffer) (r c : Nat) : FrameBuffer :=
  if h : r < 32 ∧ c < 64 then fb.set r ((fb[r]'h.1).set c (!(fb[r]'h.1)[c]'h.2) h.2) h.1 else fb

/-- All pixels off (R150, R33). -/
def FrameBuffer.allOff : FrameBuffer := Vector.replicate 32 (Vector.replicate 64 false)

/-- Toggle the cells in order; the flag says whether some cell was on when its turn came (R151). -/
def FrameBuffer.drawCells (fb : FrameBuffer) : List (Nat × Nat) → FrameBuffer × Bool
  | [] => (fb, false)
  | (r, c) :: rest =>
    let after := (fb.toggle r c).drawCells rest
    (after.1, fb.pixel r c || after.2)

/-! ## Program counter and timers -/

/-- `pc <- (pc + 2) mod 2^16`, before the handler runs (R92). -/
def State.advance (s : State) : State := { s with pc := s.pc + 2 }

/-- One timer's countdown: one lower when not zero, and never below zero (R26, R94). -/
def tickDown (t : Byte) : Byte := if t = 0 then 0 else t - 1

/-- The timer tick that ends every non-faulting step (R94). -/
def State.tick (s : State) : State := { s with DT := tickDown s.DT, ST := tickDown s.ST }

/-! ## Taking a fault (R95, R180) -/

/-- Fault entry: the record is written and `pc` is the address of the faulting instruction; nothing else changes. -/
def State.takeFault (s : State) (c : Fault) (pc0 op : Word) : State :=
  { s with pc := pc0, fault := some ⟨c, pc0, op⟩ }

/-- `raise c` inside the handler of `i`: the handler runs with `pc` advanced (R92), so the faulting instruction is
at `pc - 2`, and the fetched word is the instruction's word (log 8, log 9). -/
def State.raise (s : State) (c : Fault) (i : Instr) : State := s.takeFault c (s.pc - 2) (encode i)

/-- A handler whose checks come before its first write (R95): it raises the failing check's fault, or has its
effect. -/
def State.guarded (s : State) (check : Option Fault) (i : Instr) (effect : State) :
    Host.Outcome State Fault Refusal :=
  match check with
  | some c => .next (s.raise c i)
  | none => .next effect

/-- The code of a cause (R170). -/
def faultCode : Fault → Nat
  | .fetchOutOfRange => 1
  | .unknownOpcode => 2
  | .stackOverflow => 3
  | .stackUnderflow => 4
  | .dataAddressOutOfRange => 5
  | .fontWrite => 6
  | .keyIndexOutOfRange => 7

/-! ## The host's inputs of a step (R27, R31, R34; log 3) -/

/-- The sample the host offers next: the first pending one, or a free value. -/
def State.nextInput (s : State) : StepInput :=
  match s.inputs with
  | i :: _ => i
  | [] => ⟨Config.keysIn s.inputIndex, Config.rndIn s.inputIndex⟩

/-- Between steps the host writes the keypad and the random byte of the coming step. -/
def State.supplyInputs (s : State) : State :=
  { s with
    keys := s.nextInput.keys
    rnd := s.nextInput.rnd
    inputs := s.inputs.tail
    inputIndex := s.inputIndex + 1 }

/-- The end of a step: a faulting step ends with its record and no tick (R95); any other ticks the timers (R94), and
the host then offers the inputs of the coming step. -/
def State.finish (s : State) : State := if s.fault.isSome then s else s.tick.supplyInputs

/-! ## Fetch (R91) -/

/-- The word at `pc`, big-endian, or nothing when `pc > 0xFFE`. -/
def State.fetch (s : State) : Option Word :=
  if s.pc.toNat ≤ 0xFFE then some (wordOfBytes (s.mem.read s.pc.toNat) (s.mem.read (s.pc.toNat + 1))) else none

/-- The state with the word `op` at the address the next step fetches from, and ready to fetch it: not Faulted, and
with `pc` at 0x200 where it names no fetchable word (log 6). -/
def State.placeWord (s : State) (op : Word) : State :=
  let pc0 : Word := if s.pc.toNat ≤ 0xFFE then s.pc else 0x200
  { s with
    pc := pc0
    fault := none
    mem := s.mem.writeBytes pc0.toNat [highByte op, lowByte op] }

/-! ## The host's events (R34, R200 to R202) -/

/-- The `reset` event: everything is reinitialised, the loaded image and any fault included (R200, R181). The font
ROM is the machine's and the pending samples are the host's: they stay (log 25). There is no other way out of
a fault, and no return from one (R181). -/
def State.hostReset (s : State) : State :=
  { State.resetWith s.mem.rom with inputs := s.inputs, inputIndex := s.inputIndex }

/-- The `load(IMAGE)` event (R201): the image is copied to 0x200 onward and nothing else changes, or the load answers
ImageTooLarge (R178). -/
def State.loadImage (s : State) (image : List Byte) : Host.Outcome State Fault Refusal :=
  if image.length > 3584 then .refused .imageTooLarge
  else .next { s with mem := s.mem.writeBytes 0x200 image }

/-- The launch sequence (R202): reset, one load, and the host's inputs for the first step (R35). -/
def State.launch (s : State) (image : List Byte) : Host.Outcome State Fault Refusal :=
  match s.hostReset.loadImage image with
  | .next t => .next t.supplyInputs
  | .fault r => .fault r
  | .refused r => .refused r

/-- What the host sees between steps (R34): `fb_out`, `dt_out`, `st_out`, `fault_out`. -/
structure Outputs where
  fbOut : FrameBuffer
  dtOut : Byte
  stOut : Byte
  faultOut : Option FaultRecord
deriving DecidableEq, Repr

/-- The outputs of a state (R34). -/
def State.outputs (s : State) : Outputs := ⟨s.fb, s.DT, s.ST, s.fault⟩

end Sys2Proof.Machine
end

