-- ==== Sys2Proof/Machine/Operands.lean ====
section
/-! DEFINITION. The operand forms: zero-extended addresses, effective addresses and their checks, the register range
of Store and Load registers, decimal digits, sprite rows and cells, keys (spec 30_encoding.md R73,
20_memory.md R58, 43_index_memory.md R146, 44_display.md R152). -/

namespace Sys2Proof.Machine

/-- `zext_16(nnn)` (R73). -/
def zextAddr (nnn : Addr) : Word := nnn.setWidth 16

/-- `zext_16(v)` of a byte (R107, R141). -/
def zextByte (v : Byte) : Word := v.setWidth 16

/-- `if b: pc <- (pc + 2) mod 2^16` (R103). -/
def State.skipIf (s : State) (b : Bool) : State := if b then { s with pc := s.pc + 2 } else s

/-- The effective address `I + k`, an unbounded integer (R58). -/
def State.addr (s : State) (k : Nat) : Nat := s.I.toNat + k

/-- The range check of R146 for the addresses `I` to `I + last`. -/
def State.rangeFault (s : State) (last : Nat) : Option Fault :=
  if s.addr last > 0xFFF then some .dataAddressOutOfRange else none

/-- The checks of a store to `I` to `I + last` (R146): the range, then the font table. -/
def State.storeFault (s : State) (last : Nat) : Option Fault :=
  match s.rangeFault last with
  | some c => some c
  | none => if (List.range (last + 1)).any (fun k => s.mem.inFont (s.addr k)) then some .fontWrite else none

/-- The check of Draw sprite: none when `n = 0`, else the range `I` to `I + n - 1` (R151, R146). -/
def State.drawFault (s : State) (n : Nibble) : Option Fault :=
  if n.toNat > 0 then s.rangeFault (n.toNat - 1) else none

/-- `V[0], ..., V[x]`, both included (R144). -/
def State.regsUpTo (s : State) (x : Reg) : List Byte :=
  (List.range (x.toNat + 1)).map fun i => s.getV (BitVec.ofNat 4 i)

/-- Hundreds, tens and ones digit, one byte each (R143). -/
def bcdDigits (v : Byte) : List Byte :=
  [BitVec.ofNat 8 (v.toNat / 100), BitVec.ofNat 8 (v.toNat / 10 % 10), BitVec.ofNat 8 (v.toNat % 10)]

/-- `FONT_BASE + 5 * V[x]`: the whole byte is used (R142). -/
def spriteAddress (rom : FontRom) (v : Byte) : Word := BitVec.ofNat 16 (rom.base.val + 5 * v.toNat)

/-- The start column, `V[x] mod 64` (R151). -/
def spriteColumn (v : Byte) : Nat := v.toNat % 64

/-- The start row, `V[y] mod 32` (R151). -/
def spriteRow (v : Byte) : Nat := v.toNat % 32

/-- The screen cells (row, column) the set bits of one sprite row byte fall on, most significant bit first; a bit
outside the grid is clipped (R151, R152, D9). -/
def rowCells (xpos cy : Nat) (b : Byte) : List (Nat × Nat) :=
  (List.range 8).filterMap fun col =>
    if b.getLsbD (7 - col) ∧ xpos + col ≤ 63 ∧ cy ≤ 31 then some (cy, xpos + col) else none

/-- The cells of a whole sprite, its first row byte going to screen row `cy` (R151, R152). -/
def spriteCells (xpos : Nat) : Nat → List Byte → List (Nat × Nat)
  | _, [] => []
  | cy, b :: bs => rowCells xpos cy b ++ spriteCells xpos (cy + 1) bs

/-- `K[k] = 1` (R27). -/
def State.keyDown (s : State) (k : Nat) : Bool := s.keys.getLsbD k

/-- The smallest index of a pressed key (R163). -/
def State.lowestKey (s : State) : Option Nat := (List.range 16).find? s.keyDown

/-- The check of the key skips: the whole byte is the index, and there are 16 keys (R160, R161). -/
def keyFault (v : Byte) : Option Fault := if v.toNat > 15 then some .keyIndexOutOfRange else none

end Sys2Proof.Machine
end

