-- ==== Sys2Proof/Machine/Alu.lean ====
section
/-! DEFINITION. Register loads, arithmetic, logic, shifts, random (spec 42_alu.md). The assignments of a rule run in
its written order, each reading the state the ones before it left (R8, D10; log 15): a flag is written before
the result, and the result of the subtractions and shifts reads the registers after the flag write. -/

namespace Sys2Proof.Machine

/-- R120 Load immediate. -/
def execLoadImm (x : Reg) (kk : Byte) (s : State) : Host.Outcome State Fault Refusal :=
  .next (s.setV x kk)

/-- R121 Add immediate, modulo 256, no flag. -/
def execAddImm (x : Reg) (kk : Byte) (s : State) : Host.Outcome State Fault Refusal :=
  .next (s.setV x (s.getV x + kk))

/-- R122 Load register. -/
def execLoadReg (x y : Reg) (s : State) : Host.Outcome State Fault Refusal :=
  .next (s.setV x (s.getV y))

/-- R123 Or register. -/
def execOrReg (x y : Reg) (s : State) : Host.Outcome State Fault Refusal :=
  .next (s.setV x (s.getV x ||| s.getV y))

/-- R124 And register. -/
def execAndReg (x y : Reg) (s : State) : Host.Outcome State Fault Refusal :=
  .next (s.setV x (s.getV x &&& s.getV y))

/-- R125 Xor register. -/
def execXorReg (x y : Reg) (s : State) : Host.Outcome State Fault Refusal :=
  .next (s.setV x (s.getV x ^^^ s.getV y))

/-- R126 Add register: the sum is computed first, then the carry is written, then the sum modulo 256. -/
def execAddReg (x y : Reg) (s : State) : Host.Outcome State Fault Refusal :=
  let sum := s.getV x + s.getV y
  .next ((s.setV VF (carryFlag (s.getV x) (s.getV y))).setV x sum)

/-- R127 Sub register. -/
def execSubReg (x y : Reg) (s : State) : Host.Outcome State Fault Refusal :=
  let t := s.setV VF (notBorrowFlag (s.getV x) (s.getV y))
  .next (t.setV x (t.getV x - t.getV y))

/-- R128 Shift right of V[x]; op[7:4] is ignored. -/
def execShiftRight (x : Reg) (s : State) : Host.Outcome State Fault Refusal :=
  let t := s.setV VF (shiftRightFlag (s.getV x))
  .next (t.setV x (t.getV x >>> 1))

/-- R129 Subn register. -/
def execSubnReg (x y : Reg) (s : State) : Host.Outcome State Fault Refusal :=
  let t := s.setV VF (notBorrowFlag (s.getV y) (s.getV x))
  .next (t.setV x (t.getV y - t.getV x))

/-- R130 Shift left of V[x]; op[7:4] is ignored. -/
def execShiftLeft (x : Reg) (s : State) : Host.Outcome State Fault Refusal :=
  let t := s.setV VF (shiftLeftFlag (s.getV x))
  .next (t.setV x (t.getV x <<< 1))

/-- R131 Random: the random byte of this step, masked. -/
def execRandom (x : Reg) (kk : Byte) (s : State) : Host.Outcome State Fault Refusal :=
  .next (s.setV x (s.rnd &&& kk))

end Sys2Proof.Machine
end

