-- ==== Sys2Proof/Machine/Display.lean ====
section
/-! DEFINITION. Display instructions (spec 44_display.md). -/

namespace Sys2Proof.Machine

/-- R150 Clear display; op[11:8] is ignored. -/
def execClearDisplay (s : State) : Host.Outcome State Fault Refusal :=
  .next { s with fb := FrameBuffer.allOff }

/-- The effect of Draw sprite once its address check has passed: the coordinates are read before V[15] is cleared,
V[15] ends as the collision flag, and the cells of the sprite's set bits are toggled (R151). -/
def State.drawSprite (s : State) (x y : Reg) (n : Nibble) : State :=
  let rows := s.mem.readBytes (s.addr 0) n.toNat
  let drawn := s.fb.drawCells (spriteCells (spriteColumn (s.getV x)) (spriteRow (s.getV y)) rows)
  { s.setV VF (collisionFlag drawn.2) with fb := drawn.1 }

/-- R151 Draw sprite. -/
def execDrawSprite (x y : Reg) (n : Nibble) (s : State) : Host.Outcome State Fault Refusal :=
  s.guarded (s.drawFault n) (.drawSprite x y n) (s.drawSprite x y n)

end Sys2Proof.Machine
end

