-- ==== Sys2Proof/Machine/Flow.lean ====
section
/-! DEFINITION. Control transfer (spec 41_flow.md). In every meaning `pc` already holds the address of the current
instruction plus 2 (R92), and the timer tick is the step's, not the meaning's (R94). -/

namespace Sys2Proof.Machine

/-- R100 Return. -/
def execRet (u : Nibble) (s : State) : Host.Outcome State Fault Refusal :=
  match s.pop with
  | none => .next (s.raise .stackUnderflow (.ret u))
  | some (target, t) => .next { t with pc := target }

/-- R101 Jump. -/
def execJump (nnn : Addr) (s : State) : Host.Outcome State Fault Refusal :=
  .next { s with pc := zextAddr nnn }

/-- R102 Call: the pushed `pc` is the already advanced one. -/
def execCall (nnn : Addr) (s : State) : Host.Outcome State Fault Refusal :=
  match s.push s.pc with
  | none => .next (s.raise .stackOverflow (.call nnn))
  | some t => .next { t with pc := zextAddr nnn }

/-- R103 Skip-if-equal immediate. -/
def execSkipEqImm (x : Reg) (kk : Byte) (s : State) : Host.Outcome State Fault Refusal :=
  .next (s.skipIf (s.getV x == kk))

/-- R104 Skip-if-not-equal immediate. -/
def execSkipNeImm (x : Reg) (kk : Byte) (s : State) : Host.Outcome State Fault Refusal :=
  .next (s.skipIf (s.getV x != kk))

/-- R105 Skip-if-equal register; op[3:0] is ignored. -/
def execSkipEqReg (x y : Reg) (s : State) : Host.Outcome State Fault Refusal :=
  .next (s.skipIf (s.getV x == s.getV y))

/-- R106 Skip-if-not-equal register; op[3:0] is ignored. -/
def execSkipNeReg (x y : Reg) (s : State) : Host.Outcome State Fault Refusal :=
  .next (s.skipIf (s.getV x != s.getV y))

/-- R107 Jump with offset: the offset register is always V[0]. -/
def execJumpOffset (nnn : Addr) (s : State) : Host.Outcome State Fault Refusal :=
  .next { s with pc := zextAddr nnn + zextByte (s.getV V0) }

end Sys2Proof.Machine
end

