-- ==== Sys2Proof/Machine/IndexMemory.lean ====
section
/-! DEFINITION. Index register and memory instructions (spec 43_index_memory.md). The checks of R146 come before any
access: a faulting instruction performs none of its accesses (D16). -/

namespace Sys2Proof.Machine

/-- R140 Load index immediate. -/
def execLoadIndexImm (nnn : Addr) (s : State) : Host.Outcome State Fault Refusal :=
  .next { s with I := zextAddr nnn }

/-- R141 Add to index, modulo 2^16, no flag. -/
def execAddIndex (x : Reg) (s : State) : Host.Outcome State Fault Refusal :=
  .next { s with I := s.I + zextByte (s.getV x) }

/-- R142 Load sprite address. -/
def execLoadSpriteAddr (x : Reg) (s : State) : Host.Outcome State Fault Refusal :=
  .next { s with I := spriteAddress s.mem.rom (s.getV x) }

/-- R143 Store BCD. -/
def execStoreBcd (x : Reg) (s : State) : Host.Outcome State Fault Refusal :=
  s.guarded (s.storeFault 2) (.storeBcd x) { s with mem := s.mem.writeBytes (s.addr 0) (bcdDigits (s.getV x)) }

/-- R144 Store registers. -/
def execStoreRegs (x : Reg) (s : State) : Host.Outcome State Fault Refusal :=
  s.guarded (s.storeFault x.toNat) (.storeRegs x) { s with mem := s.mem.writeBytes (s.addr 0) (s.regsUpTo x) }

/-- R145 Load registers. -/
def execLoadRegs (x : Reg) (s : State) : Host.Outcome State Fault Refusal :=
  s.guarded (s.rangeFault x.toNat) (.loadRegs x) (s.setRegs 0 (s.mem.readBytes (s.addr 0) (x.toNat + 1)))

end Sys2Proof.Machine
end

