-- ==== Sys2Proof/Machine/Keypad.lean ====
section
/-! DEFINITION. Keypad and timer instructions (spec 45_keypad_timers.md). -/

namespace Sys2Proof.Machine

/-- R160 Skip-if-key-pressed. -/
def execSkipKeyPressed (x : Reg) (s : State) : Host.Outcome State Fault Refusal :=
  s.guarded (keyFault (s.getV x)) (.skipKeyPressed x) (s.skipIf (s.keyDown (s.getV x).toNat))

/-- R161 Skip-if-key-not-pressed. -/
def execSkipKeyNotPressed (x : Reg) (s : State) : Host.Outcome State Fault Refusal :=
  s.guarded (keyFault (s.getV x)) (.skipKeyNotPressed x) (s.skipIf (!s.keyDown (s.getV x).toNat))

/-- R162 Load from delay timer. -/
def execLoadFromDelay (x : Reg) (s : State) : Host.Outcome State Fault Refusal :=
  .next (s.setV x s.DT)

/-- R163 Wait for key: the lowest pressed key, or `pc` back to this instruction's own address. -/
def execWaitKey (x : Reg) (s : State) : Host.Outcome State Fault Refusal :=
  match s.lowestKey with
  | some k => .next (s.setV x (BitVec.ofNat 8 k))
  | none => .next { s with pc := s.pc - 2 }

/-- R164 Set delay timer. -/
def execSetDelay (x : Reg) (s : State) : Host.Outcome State Fault Refusal :=
  .next { s with DT := s.getV x }

/-- R165 Set sound timer. -/
def execSetSound (x : Reg) (s : State) : Host.Outcome State Fault Refusal :=
  .next { s with ST := s.getV x }

end Sys2Proof.Machine
end

