-- ==== Sys2Proof/Machine/Dispatch.lean ====
section
/-! DEFINITION. The dispatch of R93: exactly one handler per instruction. `s` is the state with `pc` already advanced
past the instruction (spec 40_cycle.md R92). -/

namespace Sys2Proof.Machine

def exec (i : Instr) (s : State) : Host.Outcome State Fault Refusal :=
  match i with
  | .clearDisplay _ => Sys2Proof.Machine.execClearDisplay s
  | .ret u => Sys2Proof.Machine.execRet u s
  | .jump nnn => Sys2Proof.Machine.execJump nnn s
  | .call nnn => Sys2Proof.Machine.execCall nnn s
  | .skipEqImm x kk => Sys2Proof.Machine.execSkipEqImm x kk s
  | .skipNeImm x kk => Sys2Proof.Machine.execSkipNeImm x kk s
  | .skipEqReg x y _ => Sys2Proof.Machine.execSkipEqReg x y s
  | .loadImm x kk => Sys2Proof.Machine.execLoadImm x kk s
  | .addImm x kk => Sys2Proof.Machine.execAddImm x kk s
  | .loadReg x y => Sys2Proof.Machine.execLoadReg x y s
  | .orReg x y => Sys2Proof.Machine.execOrReg x y s
  | .andReg x y => Sys2Proof.Machine.execAndReg x y s
  | .xorReg x y => Sys2Proof.Machine.execXorReg x y s
  | .addReg x y => Sys2Proof.Machine.execAddReg x y s
  | .subReg x y => Sys2Proof.Machine.execSubReg x y s
  | .shiftRight x _ => Sys2Proof.Machine.execShiftRight x s
  | .subnReg x y => Sys2Proof.Machine.execSubnReg x y s
  | .shiftLeft x _ => Sys2Proof.Machine.execShiftLeft x s
  | .skipNeReg x y _ => Sys2Proof.Machine.execSkipNeReg x y s
  | .loadIndexImm nnn => Sys2Proof.Machine.execLoadIndexImm nnn s
  | .jumpOffset nnn => Sys2Proof.Machine.execJumpOffset nnn s
  | .random x kk => Sys2Proof.Machine.execRandom x kk s
  | .drawSprite x y n => Sys2Proof.Machine.execDrawSprite x y n s
  | .skipKeyPressed x => Sys2Proof.Machine.execSkipKeyPressed x s
  | .skipKeyNotPressed x => Sys2Proof.Machine.execSkipKeyNotPressed x s
  | .loadFromDelay x => Sys2Proof.Machine.execLoadFromDelay x s
  | .waitKey x => Sys2Proof.Machine.execWaitKey x s
  | .setDelay x => Sys2Proof.Machine.execSetDelay x s
  | .setSound x => Sys2Proof.Machine.execSetSound x s
  | .addIndex x => Sys2Proof.Machine.execAddIndex x s
  | .loadSpriteAddr x => Sys2Proof.Machine.execLoadSpriteAddr x s
  | .storeBcd x => Sys2Proof.Machine.execStoreBcd x s
  | .storeRegs x => Sys2Proof.Machine.execStoreRegs x s
  | .loadRegs x => Sys2Proof.Machine.execLoadRegs x s

end Sys2Proof.Machine
end

