-- ==== Sys2Proof/Machine/Cycle.lean ====
section
/-! DEFINITION. The whole step (spec 40_cycle.md R90): fetch, advance, decode, one handler, timer tick. -/

namespace Sys2Proof.Machine

/-- What follows a fetch (R90): an unknown word faults (R171), any other word's handler runs with `pc` advanced, and
the step is finished. -/
def runWord (op : Word) (s : State) : Host.Outcome State Fault Refusal :=
  match decode op with
  | none => .next (s.takeFault .unknownOpcode s.pc op)
  | some i =>
    match exec i s.advance with
    | .next t => .next t.finish
    | .fault r => .fault r
    | .refused r => .refused r

/-- R90. A Faulted core does nothing (R96); a fetch above 0xFFE faults with the word recorded as 0 (R91, R174). -/
def cycle (s : State) : Host.Outcome State Fault Refusal :=
  if s.fault.isSome then .next s
  else
    match s.fetch with
    | none => .next (s.takeFault .fetchOutOfRange s.pc 0)
    | some op => runWord op s

end Sys2Proof.Machine
end

