-- ==== Sys2Proof/Machine/Step.lean ====
section
/-! DEFINITION. One step of the machine, and the host's way to place one word where the next step fetches. -/

namespace Sys2Proof.Machine

/-- One step (spec 40_cycle.md R90), with the inputs K and rnd of the step in the state's `keys` and `rnd`. -/
def step (s : State) : Host.Outcome State Fault Refusal := cycle s

/-- `s` with the word given as the opcode table numbers its bits stored where the next step fetches (log 6). -/
def State.withFetchWord (s : State) (nbits w : Nat) : State := s.placeWord (tableWord nbits w)

end Sys2Proof.Machine
end

