-- ==== Sys2Proof/Safety.lean ====
section
/-! DEFINITION. What counts as a safe run, the invariants of spec 10_state.md R36, and the relations statements are
written in. -/

namespace Sys2Proof.Machine

/-- The core executes: no fault is recorded (R96). -/
def State.Running (s : State) : Prop := s.fault = none

/-- A run of `k` steps that never ends Faulted: "A model should treat a Faulted state as not final (a run that ends
Faulted has gone wrong)" (R96, D21). -/
def SafeFor : Nat → State → Prop
  | 0, s => s.Running
  | k + 1, s => s.Running ∧ ∃ t, step s = .next t ∧ SafeFor k t

/-- A finished program: not Faulted, and the word at `pc` is the Jump to `pc` itself (R98, D22; log 27). -/
def State.Parked (s : State) : Prop := s.Running ∧ s.fetch = some (0x1000#16 + s.pc)

/-- The invariants of R36; (a) is in the type of `sp`, (e) is a statement about `step`. -/
structure State.Inv (s : State) : Prop where
  /-- The memory keeps its canonical form (the model's own, log 20). -/
  memory : s.mem.wf
  /-- R36 (b): every stack entry in use is at most 0x1000. -/
  stackBound : ∀ (j : Nat) (h : j < 16), j < s.sp.val → (s.stack[j]).toNat ≤ 0x1000
  /-- R36 (c). -/
  pcBound : s.pc.toNat ≤ 0x10FE
  /-- R36 (d): the font table is unmodified. -/
  font : ∀ (k : Nat) (h : k < 80), s.mem.read (s.mem.rom.base.val + k) = s.mem.rom.glyphs[k]

/-- What an instruction may change; everything not named stays (the default of every field). -/
structure MayChange where
  /-- The general registers it may write, V[15] as a flag included. -/
  regs : List Reg := []
  pc : Bool := false
  I : Bool := false
  stack : Bool := false
  delay : Bool := false
  sound : Bool := false
  screen : Bool := false
  /-- The bytes it stores to: `storeLen` bytes from `storeAt`. -/
  storeAt : Nat := 0
  storeLen : Nat := 0

/-- `t` is `s` but for what `m` names. The fault record, the font ROM and the inputs of the step never change in a
handler that does not fault (R93). -/
structure Frame (m : MayChange) (s t : State) : Prop where
  regs : ∀ x : Reg, x ∉ m.regs → t.getV x = s.getV x
  pc : m.pc = false → t.pc = s.pc
  I : m.I = false → t.I = s.I
  stack : m.stack = false → t.sp = s.sp ∧ t.stack = s.stack
  delay : m.delay = false → t.DT = s.DT
  sound : m.sound = false → t.ST = s.ST
  screen : m.screen = false → t.fb = s.fb
  memory : ∀ a : Nat, a < m.storeAt ∨ m.storeAt + m.storeLen ≤ a → t.mem.read a = s.mem.read a
  rom : t.mem.rom = s.mem.rom
  fault : t.fault = s.fault
  inputs : t.keys = s.keys ∧ t.rnd = s.rnd ∧ t.inputs = s.inputs ∧ t.inputIndex = s.inputIndex

/-- The state a faulting handler of `i` ends in: only the record is written, and `pc` is again the address of the
faulting instruction, which is the handler's `pc` less 2 (R92, R95). -/
def State.faulted (s : State) (c : Fault) (i : Instr) : State :=
  { s with pc := s.pc - 2, fault := some ⟨c, s.pc - 2, encode i⟩ }

/-- Whether the sprite drawn by `Dxyn` in `s` has a set bit on the screen cell of row `r` and column `c` (R151,
R152): the cell is on the screen, in the sprite's rectangle, and its bit, most significant first, is 1. -/
def State.spriteBit (s : State) (x y : Reg) (n : Nibble) (r c : Nat) : Bool :=
  let xpos := (s.getV x).toNat % 64
  let ypos := (s.getV y).toNat % 32
  decide (r < 32 ∧ c < 64 ∧ ypos ≤ r ∧ r < ypos + n.toNat ∧ xpos ≤ c ∧ c < xpos + 8) &&
    (s.mem.read (s.I.toNat + (r - ypos))).getLsbD (7 - (c - xpos))

/-- The addresses `I` to `I + last` lie in the memory (R146). -/
def State.inRange (s : State) (last : Nat) : Prop := s.I.toNat + last ≤ 0xFFF

/-- Some address of `I` to `I + last` lies in the font table, `FONT_BASE` to `FONT_BASE + 79` (R146, R176). -/
def State.hitsFont (s : State) (last : Nat) : Prop :=
  ∃ k ≤ last, s.mem.rom.base.val ≤ s.I.toNat + k ∧ s.I.toNat + k < s.mem.rom.base.val + 80

/-- The conditions of R170 under which the handler of `i` does not fault in `s`; "No other instruction and no other
condition faults". -/
def State.Completes (s : State) : Instr → Prop
  | .ret _ => 0 < s.sp.val
  | .call _ => s.sp.val < 16
  | .drawSprite _ _ n => n = 0 ∨ s.inRange (n.toNat - 1)
  | .skipKeyPressed x => (s.getV x).toNat ≤ 15
  | .skipKeyNotPressed x => (s.getV x).toNat ≤ 15
  | .storeBcd _ => s.inRange 2 ∧ ¬s.hitsFont 2
  | .storeRegs x => s.inRange x.toNat ∧ ¬s.hitsFont x.toNat
  | .loadRegs x => s.inRange x.toNat
  | .clearDisplay _ | .jump _ | .skipEqImm _ _ | .skipNeImm _ _ | .skipEqReg _ _ _ | .loadImm _ _ | .addImm _ _
  | .loadReg _ _ | .orReg _ _ | .andReg _ _ | .xorReg _ _ | .addReg _ _ | .subReg _ _ | .shiftRight _ _
  | .subnReg _ _ | .shiftLeft _ _ | .skipNeReg _ _ _ | .loadIndexImm _ | .jumpOffset _ | .random _ _
  | .loadFromDelay _ | .waitKey _ | .setDelay _ | .setSound _ | .addIndex _ | .loadSpriteAddr _ => True

/-- Control transfer (R23): the instructions whose handler may leave `pc` elsewhere than at the next instruction. -/
def movesPc : Instr → Bool
  | .ret _ | .jump _ | .call _ | .jumpOffset _ | .skipEqImm _ _ | .skipNeImm _ _ | .skipEqReg _ _ _ | .skipNeReg _ _ _
  | .skipKeyPressed _ | .skipKeyNotPressed _ | .waitKey _ => true
  | .clearDisplay _ | .loadImm _ _ | .addImm _ _ | .loadReg _ _ | .orReg _ _ | .andReg _ _ | .xorReg _ _ | .addReg _ _
  | .subReg _ _ | .shiftRight _ _ | .subnReg _ _ | .shiftLeft _ _ | .loadIndexImm _ | .random _ _ | .drawSprite _ _ _
  | .loadFromDelay _ | .setDelay _ | .setSound _ | .addIndex _ | .loadSpriteAddr _ | .storeBcd _ | .storeRegs _
  | .loadRegs _ => false

/-- The general registers an instruction may write: its destination, `V[0]` to `V[x]` for Load registers, and `V[15]`
for the six instructions that write the flag (R21, R22). -/
def writtenRegs : Instr → List Reg
  | .loadImm x _ | .addImm x _ | .loadReg x _ | .orReg x _ | .andReg x _ | .xorReg x _ | .random x _
  | .loadFromDelay x | .waitKey x => [x]
  | .addReg x _ | .subReg x _ | .subnReg x _ | .shiftRight x _ | .shiftLeft x _ => [x, 15]
  | .drawSprite _ _ _ => [15]
  | .loadRegs x => (List.range (x.toNat + 1)).map (BitVec.ofNat 4)
  | .clearDisplay _ | .ret _ | .jump _ | .call _ | .skipEqImm _ _ | .skipNeImm _ _ | .skipEqReg _ _ _
  | .skipNeReg _ _ _ | .loadIndexImm _ | .jumpOffset _ | .skipKeyPressed _ | .skipKeyNotPressed _ | .setDelay _
  | .setSound _ | .addIndex _ | .loadSpriteAddr _ | .storeBcd _ | .storeRegs _ => []

end Sys2Proof.Machine
end

