-- ==== Sys2Proof/Certificates/Slice0/Obligations.lean ====
section
/-! DEFINITION. The statements for the provers. `exec i s` is the handler of R93: `s.pc` is already the address of the
instruction plus 2 (R92), and the timer tick belongs to the step (R94). -/

open Sys2Proof Sys2Proof.Machine

/-! ## Encoding (spec 30_encoding.md) -/

/-- A word of every family decodes to the instruction the opcode map gives it (words of 95_test_vectors.md 2.1 and
opcode_table.json); the words with a non-zero ignored nibble rest on the spec's decisions D11 and D12. -/
def Obligations.SpecWordsDecode : Prop :=
  decode 0x00E0 = some (.clearDisplay 0) ∧ decode 0x03EE = some (.ret 3) ∧ decode 0x1FFF = some (.jump 0xFFF) ∧
  decode 0x2ABC = some (.call 0xABC) ∧ decode 0x3FFF = some (.skipEqImm 15 0xFF) ∧
  decode 0x4000 = some (.skipNeImm 0 0) ∧ decode 0x5121 = some (.skipEqReg 1 2 1) ∧
  decode 0x6A42 = some (.loadImm 10 0x42) ∧ decode 0x7001 = some (.addImm 0 1) ∧
  decode 0x8124 = some (.addReg 1 2) ∧ decode 0x812E = some (.shiftLeft 1 2) ∧
  decode 0x912F = some (.skipNeReg 1 2 15) ∧ decode 0xAFFF = some (.loadIndexImm 0xFFF) ∧
  decode 0xBFFF = some (.jumpOffset 0xFFF) ∧ decode 0xC0FF = some (.random 0 0xFF) ∧
  decode 0xD125 = some (.drawSprite 1 2 5) ∧ decode 0xEF9E = some (.skipKeyPressed 15) ∧
  decode 0xF033 = some (.storeBcd 0) ∧ decode 0x0000 = none ∧ decode 0x8128 = none ∧ decode 0xE19D = none ∧
  decode 0xF075 = none

/-- Decoding the word, or the stored bytes, of any instruction gives it back, for every value of every operand and of
every ignored field. -/
def Obligations.DecodeOfEncode : Prop :=
  ∀ (i : Instr) (rest : List Byte),
    decode (encode i) = some i ∧ decodeBytes (encodeBytes i ++ rest) = .ok (i, rest)

/-- A decoded word is the word of its instruction: no bit is dropped, the ignored ones included. -/
def Obligations.EncodeOfDecode : Prop :=
  ∀ (w : Word) (i : Instr), decode w = some i → encode i = w

/-- R75: a word is the instruction of a row exactly when its masked bits are the row's; no two rows overlap; a word of
no row is unknown. -/
def Obligations.DecodeIsTheOpcodeMap : Prop :=
  opcodeMap.length = 34 ∧
  (∀ (w : Word) (r q : OpcodeRow), r ∈ opcodeMap → q ∈ opcodeMap → w &&& r.mask = r.bits → w &&& q.mask = q.bits →
    r = q) ∧
  ∀ w : Word,
    (∀ r ∈ opcodeMap, (w &&& r.mask = r.bits ↔ ∃ i, decode w = some i ∧ i.row = r)) ∧
    (decode w = none ↔ ∀ r ∈ opcodeMap, w &&& r.mask ≠ r.bits)

/-- The unknown words are exactly those of families 0, 8, E and F outside the selectors (R77's list, which the spec
derives from R74). -/
def Obligations.UnknownWordsExactly : Prop :=
  ∀ (f x y n : Nibble), decode (f ++ x ++ y ++ n) = none ↔
    (f = 0x0 ∧ y ++ n ≠ 0xE0#8 ∧ y ++ n ≠ 0xEE#8) ∨
    (f = 0x8 ∧ 0x8 ≤ n.toNat ∧ n ≠ 0xE) ∨
    (f = 0xE ∧ y ++ n ≠ 0x9E#8 ∧ y ++ n ≠ 0xA1#8) ∨
    (f = 0xF ∧ y ++ n ∉ [0x07#8, 0x0A#8, 0x15#8, 0x18#8, 0x1E#8, 0x29#8, 0x33#8, 0x55#8, 0x65#8])

/-- Every value of the ignored bits runs identically (R78, the spec's own inference, D11 and D12), when the handler
does not fault; a fault records the fetched word (log 9). -/
def Obligations.IgnoredBitsRunIdentically : Prop :=
  ∀ (i : Instr) (s t : State), s.Running → t.Running →
    (exec i s = .next t ↔ exec i.canonical s = .next t)

/-! ## The step (spec 40_cycle.md) -/

/-- R90, R92, R93: a running core whose bytes at `pc` are a word of `i` runs the handler of `i` with `pc` advanced by
2, then ticks the timers (R94) and is offered its next inputs (the model's own form of the host's samples, log 3); a
handler that faults ends the step with its record (R95). -/
def Obligations.StepRunsDecodedInstruction : Prop :=
  ∀ (s t : State) (i : Instr), s.Running → s.pc.toNat ≤ 0xFFE →
    decode (s.mem.read s.pc.toNat ++ s.mem.read (s.pc.toNat + 1)) = some i →
    exec i { s with pc := s.pc + 2 } = .next t →
      (t.Running → step s =
        .next { t with
          DT := if t.DT = 0 then 0 else t.DT - 1
          ST := if t.ST = 0 then 0 else t.ST - 1
          keys := t.nextInput.keys
          rnd := t.nextInput.rnd
          inputs := t.inputs.tail
          inputIndex := t.inputIndex + 1 }) ∧
      (¬t.Running → step s = .next t)

/-- A fetch with `pc` above 0xFFE faults, records `pc` and 0, and changes nothing else (R91 and R174, the spec's
decision D6). -/
def Obligations.FetchOutOfRangeFaults : Prop :=
  ∀ s : State, s.Running → 0xFFE < s.pc.toNat →
    step s = .next { s with fault := some ⟨.fetchOutOfRange, s.pc, 0⟩ }

/-- An unknown word faults, records `pc` and the word, and changes nothing else (R171, the spec's decision D4). -/
def Obligations.UnknownOpcodeFaults : Prop :=
  ∀ s : State, s.Running → s.pc.toNat ≤ 0xFFE →
    decode (s.mem.read s.pc.toNat ++ s.mem.read (s.pc.toNat + 1)) = none →
    step s = .next { s with
      fault := some ⟨.unknownOpcode, s.pc, s.mem.read s.pc.toNat ++ s.mem.read (s.pc.toNat + 1)⟩ }

/-- A Faulted core does nothing, in any number of steps (R96 and R36 (e), the spec's decision D21). -/
def Obligations.FaultedIsFinal : Prop :=
  ∀ (s : State) (k : Nat), ¬s.Running → Sys2Proof.core.run k s = .next s

/-- R97: the step is total: it never stops without a next state. -/
def Obligations.StepAnswersNext : Prop := ∀ s : State, ∃ t, step s = .next t

/-- A faulting step changes nothing but the fault record, which holds the address of the faulting instruction and the
fetched word, 0 where none could be fetched (R95 and R180, the spec's decision D7). -/
def Obligations.FaultsArePrecise : Prop :=
  ∀ (s t : State) (r : FaultRecord), s.Running → step s = .next t → t.fault = some r →
    t = { s with fault := some r } ∧ r.faultPc = s.pc ∧
    ((r.cause = .fetchOutOfRange ∧ 0xFFE < s.pc.toNat ∧ r.faultOp = 0) ∨
     (r.cause ≠ .fetchOutOfRange ∧ s.pc.toNat ≤ 0xFFE ∧
       r.faultOp = s.mem.read s.pc.toNat ++ s.mem.read (s.pc.toNat + 1)))

/-- A step completes exactly when its word is fetched, known, and its handler's own conditions of R170 hold (R170,
R190; the fault policies are the spec's decisions D4, D5, D6, D14, D15). -/
def Obligations.StepCompletesExactlyWhen : Prop :=
  ∀ (s t : State), s.Running → step s = .next t →
    (t.Running ↔ s.pc.toNat ≤ 0xFFE ∧
      ∃ i, decode (s.mem.read s.pc.toNat ++ s.mem.read (s.pc.toNat + 1)) = some i ∧ s.Completes i)

/-- The causes have the codes 1 to 7 in the order of detection (R170, the spec's decision D8). -/
def Obligations.FaultCodesAreOneToSeven : Prop :=
  [Fault.fetchOutOfRange, .unknownOpcode, .stackOverflow, .stackUnderflow, .dataAddressOutOfRange, .fontWrite,
    .keyIndexOutOfRange].map faultCode = [1, 2, 3, 4, 5, 6, 7] ∧
  ∀ c : Fault, 1 ≤ faultCode c ∧ faultCode c ≤ 7 ∧ ∀ d : Fault, faultCode c = faultCode d → c = d

/-- R94, R26: in every completed step each timer ends one below what the handler left, which is its old value unless
the instruction sets it, and never below zero. -/
def Obligations.TimersTickEveryStep : Prop :=
  ∀ (s t : State) (i : Instr), s.Running → step s = .next t → t.Running →
    decode (s.mem.read s.pc.toNat ++ s.mem.read (s.pc.toNat + 1)) = some i →
    ((∀ x, i ≠ .setDelay x) → t.DT.toNat = s.DT.toNat - 1) ∧
    ((∀ x, i ≠ .setSound x) → t.ST.toNat = s.ST.toNat - 1)

/-- R97: the random byte matters only to Random, and the keypad only to the key skips and Wait for key. -/
def Obligations.InputsMatterOnlyWhereRead : Prop :=
  ∀ (i : Instr) (s t : State) (k : Word) (b : Byte), exec i s = .next t →
    ((∀ x kk, i ≠ .random x kk) → exec i { s with rnd := b } = .next { t with rnd := b }) ∧
    ((∀ x, i ≠ .skipKeyPressed x ∧ i ≠ .skipKeyNotPressed x ∧ i ≠ .waitKey x) →
      exec i { s with keys := k } = .next { t with keys := k })

/-- R98: from a parked state a step leaves everything but the timers, which count down to 0 and stay there (and the
inputs, which the host writes anew), and the core stays parked; so it never faults (the spec's inference from its
decision D22; log 27). -/
def Obligations.ParkedStaysParked : Prop :=
  ∀ s : State, s.Parked → (∀ k, SafeFor k s) ∧ ∃ t, step s = .next t ∧ t.Parked ∧
    Frame { delay := true, sound := true } { s with
      keys := t.keys, rnd := t.rnd, inputs := t.inputs, inputIndex := t.inputIndex } t ∧
    t.DT.toNat = s.DT.toNat - 1 ∧ t.ST.toNat = s.ST.toNat - 1

/-- A store is seen by the fetch of the very next step: two bytes stored over the next instruction are the next word
(R63, which the spec derives from R60 and R91). -/
def Obligations.NextFetchSeesStore : Prop :=
  ∀ (s : State) (x : Reg), s.Running → s.mem.wf → s.fetch = some (0xF#4 ++ x ++ 0x55#8) → 1 ≤ x.toNat →
    s.I.toNat = s.pc.toNat + 2 → s.inRange x.toNat → ¬s.hitsFont x.toNat →
    ∃ t, step s = .next t ∧ t.Running ∧ t.fetch = some (s.getV 0 ++ s.getV 1)

/-! ## Whole-machine rules -/

/-- R20, column "written by", for every handler and every row: a handler whose condition of R170 holds leaves the fault
record, and leaves `pc` unless it transfers control; any other ends in its fault entry; and `V`, `I`, the stack, the
timers, the framebuffer and memory are written by the instructions named, the inputs and the font ROM by none (log 1,
log 3). -/
def Obligations.WritersOfEachPieceOfState : Prop :=
  ∀ (i : Instr) (s t : State), exec i s = .next t →
    ((s.Completes i ∧ t.fault = s.fault ∧ (movesPc i = false → t.pc = s.pc)) ∨
      (¬s.Completes i ∧ ∃ c, t = s.faulted c i)) ∧
    (∀ r : Reg, r ∉ writtenRegs i → t.getV r = s.getV r) ∧
    ((∀ nnn u, i ≠ .call nnn ∧ i ≠ .ret u) → t.sp = s.sp) ∧ ((∀ nnn, i ≠ .call nnn) → t.stack = s.stack) ∧
    ((∀ nnn x, i ≠ .loadIndexImm nnn ∧ i ≠ .addIndex x ∧ i ≠ .loadSpriteAddr x) → t.I = s.I) ∧
    ((∀ x, i ≠ .setDelay x) → t.DT = s.DT) ∧ ((∀ x, i ≠ .setSound x) → t.ST = s.ST) ∧
    ((∀ u x y n, i ≠ .clearDisplay u ∧ i ≠ .drawSprite x y n) → t.fb = s.fb) ∧
    ((∀ x, i ≠ .storeBcd x ∧ i ≠ .storeRegs x) → t.mem = s.mem) ∧
    (t.mem.rom = s.mem.rom ∧ t.keys = s.keys ∧ t.rnd = s.rnd)

/-- The invariants the spec derives in R36, and the canonical form of the model's memory (log 20), hold at reset, for
every font ROM. -/
def Obligations.ResetMeetsInvariants : Prop := ∀ rom : FontRom, (State.resetWith rom).Inv

/-- Every step keeps those invariants (R36, log 20), from every state that meets them. -/
def Obligations.StepKeepsInvariants : Prop :=
  ∀ s t : State, s.Inv → step s = .next t → t.Inv

/-- No step changes a byte of the font table (R57, the spec's decision D15). -/
def Obligations.FontTableIsReadOnly : Prop :=
  ∀ (s t : State) (k : Nat), s.mem.wf → step s = .next t → k < 80 →
    t.mem.rom = s.mem.rom ∧
      t.mem.read (s.mem.rom.base.val + k) = s.mem.read (s.mem.rom.base.val + k)

/-! ## Reset and load (spec 70_reset_and_hazards.md, 10_state.md R33) -/

/-- R33: the value of every piece of state after reset, for every font ROM. -/
def Obligations.ResetState : Prop :=
  (∃ rom, State.reset = State.resetWith rom) ∧ ∀ rom : FontRom,
    (∀ x, (State.resetWith rom).getV x = 0) ∧ (State.resetWith rom).pc = 0x200 ∧ (State.resetWith rom).I = 0 ∧
    (∀ (j : Nat) (h : j < 16), (State.resetWith rom).stack[j] = 0) ∧ (State.resetWith rom).sp = 0 ∧
    (State.resetWith rom).DT = 0 ∧ (State.resetWith rom).ST = 0 ∧ (State.resetWith rom).keys = 0 ∧
    (∀ r c, (State.resetWith rom).fb.pixel r c = false) ∧ (State.resetWith rom).fault = none ∧
    (∀ (k : Nat) (h : k < 80), (State.resetWith rom).mem.read (rom.base.val + k) = rom.glyphs[k]) ∧
    (∀ a : Nat, ¬(rom.base.val ≤ a ∧ a < rom.base.val + 80) → (State.resetWith rom).mem.read a = 0)

/-- Reset of any machine, a Faulted one included, gives the reset state of its own font ROM (R200, R181, D21); the
host's pending samples and their counter stay (the model's own clause, log 25). -/
def Obligations.HostResetReinitialises : Prop :=
  ∀ s : State, s.hostReset.Running ∧ s.hostReset.Inv ∧
    s.hostReset.inputs = s.inputs ∧ s.hostReset.inputIndex = s.inputIndex ∧
    { s.hostReset with inputs := [], inputIndex := 0 } = State.resetWith s.mem.rom

/-- R201, R178: a load copies an image of at most 3584 bytes to 0x200 onward and changes nothing else; a longer image is
answered with ImageTooLarge. -/
def Obligations.LoadCopiesImage : Prop :=
  ∀ (s : State) (image : List Byte), s.mem.wf →
    (image.length ≤ 3584 → ∃ t, s.loadImage image = .next t ∧
      t = { s with mem := t.mem } ∧ t.mem.rom = s.mem.rom ∧
      (∀ (k : Nat) (h : k < image.length), t.mem.read (0x200 + k) = image[k]) ∧
      ∀ a : Nat, a < 0x200 ∨ 0x200 + image.length ≤ a → t.mem.read a = s.mem.read a) ∧
    (3584 < image.length → s.loadImage image = .refused .imageTooLarge)

/-- After launch the first fetch is the first two bytes of the image, and with no image the first step raises
UnknownOpcode (R202, which derives it from R77). -/
def Obligations.LaunchRunsImage : Prop :=
  ∀ (s : State) (hi lo : Byte) (rest : List Byte), rest.length ≤ 3582 →
    (∃ t, s.launch (hi :: lo :: rest) = .next t ∧ t.Running ∧ t.pc = 0x200 ∧ t.fetch = some (hi ++ lo)) ∧
    (∃ t, s.launch [] = .next t ∧ step t = .next { t with fault := some ⟨.unknownOpcode, 0x200, 0x0000⟩ })

/-! ## Control transfer (spec 41_flow.md) -/

/-- R100 Return: the encoding; with an entry on the stack `SP` falls by one, `pc` is the entry there, and the entry
stays; with none it raises StackUnderflow and changes nothing (the spec's decision D5). That the nibble `u` is ignored is
the spec's decision D11 (R78, log 16). -/
def Obligations.ReturnPops : Prop :=
  ∀ (u : Nibble) (s : State), decode (0x0#4 ++ u ++ 0xEE#8) = some (.ret u) ∧
    (∀ h : 0 < s.sp.val, ∃ t, exec (.ret u) s = .next t ∧
      t.sp.val = s.sp.val - 1 ∧ t.pc = s.stack[s.sp.val - 1]'(by omega) ∧ t.stack = s.stack ∧
      Frame { pc := true, stack := true } s t) ∧
    (s.sp.val = 0 → exec (.ret u) s = .next (s.faulted .stackUnderflow (.ret u)))

/-- R101 Jump: the encoding; `pc` is the zero-extended address and nothing else changes. -/
def Obligations.JumpSetsPc : Prop :=
  ∀ (nnn : Addr) (s : State), decode (0x1#4 ++ nnn) = some (.jump nnn) ∧
    ∃ t, exec (.jump nnn) s = .next t ∧ t.pc.toNat = nnn.toNat ∧ Frame { pc := true } s t

/-- R102 Call: the encoding; with room on the stack the advanced `pc` is pushed and `pc` is the address; on a full
stack it raises StackOverflow and changes nothing (the spec's decision D5). -/
def Obligations.CallPushes : Prop :=
  ∀ (nnn : Addr) (s : State), decode (0x2#4 ++ nnn) = some (.call nnn) ∧
    (∀ h : s.sp.val < 16, ∃ t, exec (.call nnn) s = .next t ∧
      t.sp.val = s.sp.val + 1 ∧ t.stack[s.sp.val] = s.pc ∧
      (∀ (j : Nat) (hj : j < 16), j ≠ s.sp.val → t.stack[j] = s.stack[j]) ∧
      t.pc.toNat = nnn.toNat ∧ Frame { pc := true, stack := true } s t) ∧
    (s.sp.val = 16 → exec (.call nnn) s = .next (s.faulted .stackOverflow (.call nnn)))

/-- R25: a Return after a Call comes back to the instruction after the Call, with the stack pointer as before,
whatever the Return's ignored nibble (the spec's decision D11). -/
def Obligations.ReturnUndoesCall : Prop :=
  ∀ (nnn : Addr) (u : Nibble) (s t : State), s.sp.val < 16 → exec (.call nnn) s = .next t →
    ∃ r, exec (.ret u) { t with pc := t.pc + 2 } = .next r ∧ r.pc = s.pc ∧ r.sp = s.sp

/-- R103, R104: the encodings; the immediate skips add 2 to `pc` exactly when V[x] is equal, or not equal, to kk. -/
def Obligations.ImmediateSkips : Prop :=
  ∀ (x : Reg) (kk : Byte) (s : State),
    decode (0x3#4 ++ x ++ kk) = some (.skipEqImm x kk) ∧ decode (0x4#4 ++ x ++ kk) = some (.skipNeImm x kk) ∧
    (∃ t, exec (.skipEqImm x kk) s = .next t ∧
      (s.getV x = kk → t.pc = s.pc + 2) ∧ (s.getV x ≠ kk → t.pc = s.pc) ∧ Frame { pc := true } s t) ∧
    (∃ t, exec (.skipNeImm x kk) s = .next t ∧
      (s.getV x ≠ kk → t.pc = s.pc + 2) ∧ (s.getV x = kk → t.pc = s.pc) ∧ Frame { pc := true } s t)

/-- R105, R106: the encodings, any low nibble; the register skips add 2 to `pc` exactly when V[x] is equal, or not
equal, to V[y]. The ignored nibble is the spec's decision D12. -/
def Obligations.RegisterSkips : Prop :=
  ∀ (x y : Reg) (u : Nibble) (s : State),
    decode (0x5#4 ++ x ++ y ++ u) = some (.skipEqReg x y u) ∧
    decode (0x9#4 ++ x ++ y ++ u) = some (.skipNeReg x y u) ∧
    (∃ t, exec (.skipEqReg x y u) s = .next t ∧
      (s.getV x = s.getV y → t.pc = s.pc + 2) ∧ (s.getV x ≠ s.getV y → t.pc = s.pc) ∧ Frame { pc := true } s t) ∧
    (∃ t, exec (.skipNeReg x y u) s = .next t ∧
      (s.getV x ≠ s.getV y → t.pc = s.pc + 2) ∧ (s.getV x = s.getV y → t.pc = s.pc) ∧ Frame { pc := true } s t)

/-- R107 Jump with offset: the encoding; `pc` is the unreduced sum of the address and V[0]. -/
def Obligations.JumpOffsetAddsV0 : Prop :=
  ∀ (nnn : Addr) (s : State), decode (0xB#4 ++ nnn) = some (.jumpOffset nnn) ∧
    ∃ t, exec (.jumpOffset nnn) s = .next t ∧ t.pc.toNat = nnn.toNat + (s.getV 0).toNat ∧
      t.pc.toNat ≤ 0x10FE ∧ Frame { pc := true } s t

/-! ## Loads, arithmetic, logic, shifts, random (spec 42_alu.md) -/

/-- R120, R121: the encodings; Load immediate writes kk, Add immediate the sum modulo 256, and neither writes another
register, V[15] included. -/
def Obligations.ImmediateLoadsAndAdds : Prop :=
  ∀ (x : Reg) (kk : Byte) (s : State),
    decode (0x6#4 ++ x ++ kk) = some (.loadImm x kk) ∧ decode (0x7#4 ++ x ++ kk) = some (.addImm x kk) ∧
    (∃ t, exec (.loadImm x kk) s = .next t ∧ t.getV x = kk ∧ Frame { regs := [x] } s t) ∧
    (∃ t, exec (.addImm x kk) s = .next t ∧ (t.getV x).toNat = ((s.getV x).toNat + kk.toNat) % 256 ∧
      Frame { regs := [x] } s t)

/-- R122 to R125: the encodings; Load register, Or, And and Xor write V[x] and no other register, V[15] included. -/
def Obligations.RegisterLoadsAndLogic : Prop :=
  ∀ (x y : Reg) (s : State),
    decode (0x8#4 ++ x ++ y ++ 0x0#4) = some (.loadReg x y) ∧ decode (0x8#4 ++ x ++ y ++ 0x1#4) = some (.orReg x y) ∧
    decode (0x8#4 ++ x ++ y ++ 0x2#4) = some (.andReg x y) ∧ decode (0x8#4 ++ x ++ y ++ 0x3#4) = some (.xorReg x y) ∧
    (∃ t, exec (.loadReg x y) s = .next t ∧ t.getV x = s.getV y ∧ Frame { regs := [x] } s t) ∧
    (∃ t, exec (.orReg x y) s = .next t ∧ t.getV x = s.getV x ||| s.getV y ∧ Frame { regs := [x] } s t) ∧
    (∃ t, exec (.andReg x y) s = .next t ∧ t.getV x = s.getV x &&& s.getV y ∧ Frame { regs := [x] } s t) ∧
    (∃ t, exec (.xorReg x y) s = .next t ∧ t.getV x = s.getV x ^^^ s.getV y ∧ Frame { regs := [x] } s t)

/-- R126 Add register: the encoding; V[x] is the sum modulo 256, and V[15] is the carry unless it is V[x]. With register
15 as an operand (the sum uses its old value, and overwrites the carry) it follows the order of the spec's decision D10
(R8, R133, log 15). -/
def Obligations.AddRegisterWithCarry : Prop :=
  ∀ (x y : Reg) (s : State), decode (0x8#4 ++ x ++ y ++ 0x4#4) = some (.addReg x y) ∧
    ∃ t, exec (.addReg x y) s = .next t ∧
      (t.getV x).toNat = ((s.getV x).toNat + (s.getV y).toNat) % 256 ∧
      (x ≠ 15 → t.getV 15 = if (s.getV x).toNat + (s.getV y).toNat > 255 then 1 else 0) ∧
      Frame { regs := [x, 15] } s t

/-- R127 Sub register: the encoding; V[15] is 1 exactly when V[x] > V[y] (strict, unsigned), and V[x] is the difference
of the registers as they are after that write, modulo 256, in all four cases of R133 (the order of the two writes is
the spec's decision D10). -/
def Obligations.SubRegisterNotBorrow : Prop :=
  ∀ (x y : Reg) (s : State), decode (0x8#4 ++ x ++ y ++ 0x5#4) = some (.subReg x y) ∧
    ∀ f : Byte, (f = if (s.getV x).toNat > (s.getV y).toNat then 1 else 0) →
    ∃ t, exec (.subReg x y) s = .next t ∧ Frame { regs := [x, 15] } s t ∧
      (x ≠ 15 → y ≠ 15 → t.getV 15 = f ∧ t.getV x = s.getV x - s.getV y) ∧
      (x = 15 → y ≠ 15 → t.getV 15 = f - s.getV y) ∧
      (x ≠ 15 → y = 15 → t.getV 15 = f ∧ t.getV x = s.getV x - f) ∧
      (x = 15 → y = 15 → t.getV 15 = 0)

/-- R129 Subn register: as Sub register with the operands exchanged; V[y] is not written unless it is V[15]
(the spec's decision D10, C5). -/
def Obligations.SubnRegisterNotBorrow : Prop :=
  ∀ (x y : Reg) (s : State), decode (0x8#4 ++ x ++ y ++ 0x7#4) = some (.subnReg x y) ∧
    ∀ f : Byte, (f = if (s.getV y).toNat > (s.getV x).toNat then 1 else 0) →
    ∃ t, exec (.subnReg x y) s = .next t ∧ Frame { regs := [x, 15] } s t ∧
      (x ≠ 15 → y ≠ 15 → t.getV 15 = f ∧ t.getV x = s.getV y - s.getV x) ∧
      (x = 15 → y ≠ 15 → t.getV 15 = s.getV y - f) ∧
      (x ≠ 15 → y = 15 → t.getV 15 = f ∧ t.getV x = f - s.getV x) ∧
      (x = 15 → y = 15 → t.getV 15 = 0)

/-- R128, R130 the shifts: the encodings, any `y`; V[15] is the bit shifted out and V[x] its old value shifted by one,
and with x = 15 the shift is of the flag just written (the spec's decisions D10 and D12). -/
def Obligations.ShiftsCaptureBit : Prop :=
  ∀ (x y : Reg) (s : State),
    decode (0x8#4 ++ x ++ y ++ 0x6#4) = some (.shiftRight x y) ∧
    decode (0x8#4 ++ x ++ y ++ 0xE#4) = some (.shiftLeft x y) ∧
    (∃ t, exec (.shiftRight x y) s = .next t ∧ Frame { regs := [x, 15] } s t ∧
      (x ≠ 15 → (t.getV 15).toNat = (s.getV x).toNat % 2 ∧ (t.getV x).toNat = (s.getV x).toNat / 2) ∧
      (x = 15 → t.getV 15 = 0)) ∧
    (∃ t, exec (.shiftLeft x y) s = .next t ∧ Frame { regs := [x, 15] } s t ∧
      (x ≠ 15 → (t.getV 15).toNat = (s.getV x).toNat / 128 ∧ (t.getV x).toNat = 2 * (s.getV x).toNat % 256) ∧
      (x = 15 → (t.getV 15).toNat = 2 * ((s.getV 15).toNat / 128)))

/-- R131 Random: the encoding; V[x] is the random byte of the step, whatever it is, masked by kk. -/
def Obligations.RandomIsMasked : Prop :=
  ∀ (x : Reg) (kk : Byte) (s : State), decode (0xC#4 ++ x ++ kk) = some (.random x kk) ∧
    ∃ t, exec (.random x kk) s = .next t ∧ t.getV x = s.rnd &&& kk ∧ Frame { regs := [x] } s t

/-! ## Index register and memory (spec 43_index_memory.md) -/

/-- R140, R141, R142: the encodings; `I` is the zero-extended address, or the sum modulo 2^16, or the glyph address
(which cannot wrap); no flag, no register and nothing else changes. The wrap at 2^16 is the spec's decision D17. -/
def Obligations.IndexWrites : Prop :=
  ∀ (x : Reg) (nnn : Addr) (s : State),
    decode (0xA#4 ++ nnn) = some (.loadIndexImm nnn) ∧ decode (0xF#4 ++ x ++ 0x1E#8) = some (.addIndex x) ∧
    decode (0xF#4 ++ x ++ 0x29#8) = some (.loadSpriteAddr x) ∧
    (∃ t, exec (.loadIndexImm nnn) s = .next t ∧ t.I.toNat = nnn.toNat ∧ Frame { I := true } s t) ∧
    (∃ t, exec (.addIndex x) s = .next t ∧ t.I.toNat = (s.I.toNat + (s.getV x).toNat) % 65536 ∧
      Frame { I := true } s t) ∧
    (∃ t, exec (.loadSpriteAddr x) s = .next t ∧ t.I.toNat = s.mem.rom.base.val + 5 * (s.getV x).toNat ∧
      Frame { I := true } s t)

/-- R143 Store BCD: the encoding; the three decimal digits go to `I`, `I + 1`, `I + 2` and no other byte changes; out of
range, or on the font table, it faults and writes nothing (R146; D6, D15, D16). -/
def Obligations.StoreBcdDigits : Prop :=
  ∀ (x : Reg) (s : State), s.mem.wf → decode (0xF#4 ++ x ++ 0x33#8) = some (.storeBcd x) ∧
    (s.inRange 2 → ¬s.hitsFont 2 → ∃ t, exec (.storeBcd x) s = .next t ∧
      (t.mem.read s.I.toNat).toNat = (s.getV x).toNat / 100 ∧
      (t.mem.read (s.I.toNat + 1)).toNat = (s.getV x).toNat / 10 % 10 ∧
      (t.mem.read (s.I.toNat + 2)).toNat = (s.getV x).toNat % 10 ∧
      Frame { storeAt := s.addr 0, storeLen := 3 } s t) ∧
    (¬s.inRange 2 → exec (.storeBcd x) s = .next (s.faulted .dataAddressOutOfRange (.storeBcd x))) ∧
    (s.inRange 2 → s.hitsFont 2 → exec (.storeBcd x) s = .next (s.faulted .fontWrite (.storeBcd x)))

/-- R144 Store registers: the encoding; V[0] to V[x] inclusive go to `I` to `I + x`, no other byte changes and `I` stays;
out of range, or on the font table, it faults and writes nothing (R146; D6, D15, D16). -/
def Obligations.StoreRegistersRange : Prop :=
  ∀ (x : Reg) (s : State), s.mem.wf → decode (0xF#4 ++ x ++ 0x55#8) = some (.storeRegs x) ∧
    (s.inRange x.toNat → ¬s.hitsFont x.toNat → ∃ t, exec (.storeRegs x) s = .next t ∧
      (∀ i : Reg, i.toNat ≤ x.toNat → t.mem.read (s.I.toNat + i.toNat) = s.getV i) ∧
      Frame { storeAt := s.addr 0, storeLen := x.toNat + 1 } s t) ∧
    (¬s.inRange x.toNat → exec (.storeRegs x) s = .next (s.faulted .dataAddressOutOfRange (.storeRegs x))) ∧
    (s.inRange x.toNat → s.hitsFont x.toNat →
      exec (.storeRegs x) s = .next (s.faulted .fontWrite (.storeRegs x)))

/-- R145 Load registers: the encoding; V[0] to V[x] inclusive are loaded from `I` to `I + x`, the font table included,
and the registers above x and `I` stay; out of range it faults with no register changed (R146; D6, D16). -/
def Obligations.LoadRegistersRange : Prop :=
  ∀ (x : Reg) (s : State), decode (0xF#4 ++ x ++ 0x65#8) = some (.loadRegs x) ∧
    (s.inRange x.toNat → ∃ t, exec (.loadRegs x) s = .next t ∧
      (∀ i : Reg, i.toNat ≤ x.toNat → t.getV i = s.mem.read (s.I.toNat + i.toNat)) ∧
      (∀ i : Reg, x.toNat < i.toNat → t.getV i = s.getV i) ∧
      Frame { regs := (List.range (x.toNat + 1)).map (BitVec.ofNat 4) } s t) ∧
    (¬s.inRange x.toNat → exec (.loadRegs x) s = .next (s.faulted .dataAddressOutOfRange (.loadRegs x)))

/-- R144, R145: storing the registers and loading them back, with the registers below x + 1 overwritten in between,
restores them. -/
def Obligations.LoadRestoresStoredRegisters : Prop :=
  ∀ (x : Reg) (s t u : State), s.mem.wf → s.Completes (.storeRegs x) → exec (.storeRegs x) s = .next t →
    u.mem = t.mem → u.I = s.I →
    ∃ r, exec (.loadRegs x) u = .next r ∧ ∀ i : Reg, i.toNat ≤ x.toNat → r.getV i = s.getV i

/-- The two address checks cannot both fail: a range of at most 16 bytes that leaves the memory is clear of the font
table (R146, which the spec derives from R51). -/
def Obligations.AddressChecksExclude : Prop :=
  ∀ (s : State) (last : Nat), last ≤ 15 → ¬s.inRange last → ¬s.hitsFont last

/-! ## Display (spec 44_display.md) -/

/-- R150 Clear display: the encoding, any ignored nibble; every pixel is off and nothing else changes. That the
nibble is ignored is the spec's decision D11. -/
def Obligations.ClearDisplayClears : Prop :=
  ∀ (u : Nibble) (s : State), decode (0x0#4 ++ u ++ 0xE0#8) = some (.clearDisplay u) ∧
    ∃ t, exec (.clearDisplay u) s = .next t ∧ (∀ r c, t.fb.pixel r c = false) ∧ Frame { screen := true } s t

/-- R151, R152 Draw sprite: the encoding; each pixel ends as itself xor the sprite's bit on it, where the sprite starts at
(V[x] mod 64, V[y] mod 32) and is clipped at the edges, and V[15] is 1 exactly when a set bit met a pixel that was on
before; n = 0 reads nothing and needs no address; out of range it faults and changes nothing. Clipping and the address
check are the spec's decisions D9, D25 and D6; that a coordinate in V[15] is read before V[15] is cleared is D10 (R151
(d), log 15). -/
def Obligations.DrawXorsSprite : Prop :=
  ∀ (x y : Reg) (n : Nibble) (s : State), decode (0xD#4 ++ x ++ y ++ n) = some (.drawSprite x y n) ∧
    ((n = 0 ∨ s.inRange (n.toNat - 1)) → ∃ t, exec (.drawSprite x y n) s = .next t ∧
      (∀ r c, t.fb.pixel r c = (s.fb.pixel r c ^^ s.spriteBit x y n r c)) ∧
      ((∃ r c, s.spriteBit x y n r c = true ∧ s.fb.pixel r c = true) → t.getV 15 = 1) ∧
      ((∀ r c, s.spriteBit x y n r c = true → s.fb.pixel r c = false) → t.getV 15 = 0) ∧
      Frame { regs := [15], screen := true } s t) ∧
    (n ≠ 0 → ¬s.inRange (n.toNat - 1) →
      exec (.drawSprite x y n) s = .next (s.faulted .dataAddressOutOfRange (.drawSprite x y n)))

/-- R153 (a), (b): drawing the same sprite twice at the same position restores every pixel, and the second draw's flag is
1 exactly when the first turned some pixel on; (c): a draw on a clear framebuffer gives flag 0, wherever it is. The spec
derives these from R151 (with its decisions D9 and D10). -/
def Obligations.DrawTwiceRestores : Prop :=
  ∀ (x y : Reg) (n : Nibble) (s t : State), s.Completes (.drawSprite x y n) →
    exec (.drawSprite x y n) s = .next t →
    ((t.getV x).toNat % 64 = (s.getV x).toNat % 64 → (t.getV y).toNat % 32 = (s.getV y).toNat % 32 →
      ∃ u, exec (.drawSprite x y n) t = .next u ∧ u.fb = s.fb ∧
        (u.getV 15 = 1 ↔ ∃ r c, s.fb.pixel r c = false ∧ t.fb.pixel r c = true)) ∧
    ((∀ r c, s.fb.pixel r c = false) → t.getV 15 = 0)

/-- R153 (d): a draw changes as many pixels as the n sprite bytes have set bits that are not clipped (the spec derives
it from R151, with its decisions D9 and D10). -/
def Obligations.DrawChangesVisibleBits : Prop :=
  ∀ (x y : Reg) (n : Nibble) (s t : State), s.Completes (.drawSprite x y n) →
    exec (.drawSprite x y n) s = .next t →
    ((Finset.range 32 ×ˢ Finset.range 64).filter fun p => t.fb.pixel p.1 p.2 ≠ s.fb.pixel p.1 p.2).card =
    ((Finset.range n.toNat ×ˢ Finset.range 8).filter fun p =>
      (s.mem.read (s.I.toNat + p.1)).getLsbD (7 - p.2) = true ∧
      (s.getV y).toNat % 32 + p.1 ≤ 31 ∧ (s.getV x).toNat % 64 + p.2 ≤ 63).card

/-! ## Keypad and timers (spec 45_keypad_timers.md) -/

/-- R160, R161 the key skips: the encodings; the whole byte V[x] is the key index, and the skip is taken exactly when that
key is pressed, or not pressed; an index above 15 raises KeyIndexOutOfRange and changes nothing (the spec's decision
D14). -/
def Obligations.KeySkips : Prop :=
  ∀ (x : Reg) (s : State),
    decode (0xE#4 ++ x ++ 0x9E#8) = some (.skipKeyPressed x) ∧
    decode (0xE#4 ++ x ++ 0xA1#8) = some (.skipKeyNotPressed x) ∧
    ((s.getV x).toNat ≤ 15 →
      (∃ t, exec (.skipKeyPressed x) s = .next t ∧ Frame { pc := true } s t ∧
        (s.keys.getLsbD (s.getV x).toNat = true → t.pc = s.pc + 2) ∧
        (s.keys.getLsbD (s.getV x).toNat = false → t.pc = s.pc)) ∧
      (∃ t, exec (.skipKeyNotPressed x) s = .next t ∧ Frame { pc := true } s t ∧
        (s.keys.getLsbD (s.getV x).toNat = false → t.pc = s.pc + 2) ∧
        (s.keys.getLsbD (s.getV x).toNat = true → t.pc = s.pc))) ∧
    (15 < (s.getV x).toNat →
      exec (.skipKeyPressed x) s = .next (s.faulted .keyIndexOutOfRange (.skipKeyPressed x)) ∧
      exec (.skipKeyNotPressed x) s = .next (s.faulted .keyIndexOutOfRange (.skipKeyNotPressed x)))

/-- R163 Wait for key: the encoding; with a key pressed V[x] is the lowest pressed key and `pc` stays advanced; with none
`pc` goes back by 2 and no register changes. -/
def Obligations.WaitForKeyPolls : Prop :=
  ∀ (x : Reg) (s : State), decode (0xF#4 ++ x ++ 0x0A#8) = some (.waitKey x) ∧
    (∀ k : Nat, k ≤ 15 → s.keys.getLsbD k = true → (∀ j < k, s.keys.getLsbD j = false) →
      ∃ t, exec (.waitKey x) s = .next t ∧ (t.getV x).toNat = k ∧ Frame { regs := [x] } s t) ∧
    (s.keys = 0 → ∃ t, exec (.waitKey x) s = .next t ∧ t.pc = s.pc - 2 ∧ Frame { pc := true } s t)

/-- R163 (a), (b), R94: a step of Wait for key with no key pressed leaves `pc` and the registers as they were, and the
timers count down. -/
def Obligations.WaitForKeyStepRewinds : Prop :=
  ∀ (x : Reg) (s : State), s.Running → s.fetch = some (0xF#4 ++ x ++ 0x0A#8) → s.keys = 0 →
    ∃ t, step s = .next t ∧ t.Running ∧ t.pc = s.pc ∧ (∀ y, t.getV y = s.getV y) ∧
      t.DT.toNat = s.DT.toNat - 1 ∧ t.ST.toNat = s.ST.toNat - 1

/-- R162, R164, R165 the timer instructions: the encodings; Load from delay timer copies `DT`, Set delay timer and Set
sound timer copy V[x], and nothing else changes in the handler. -/
def Obligations.TimerMoves : Prop :=
  ∀ (x : Reg) (s : State),
    decode (0xF#4 ++ x ++ 0x07#8) = some (.loadFromDelay x) ∧ decode (0xF#4 ++ x ++ 0x15#8) = some (.setDelay x) ∧
    decode (0xF#4 ++ x ++ 0x18#8) = some (.setSound x) ∧
    (∃ t, exec (.loadFromDelay x) s = .next t ∧ t.getV x = s.DT ∧ Frame { regs := [x] } s t) ∧
    (∃ t, exec (.setDelay x) s = .next t ∧ t.DT = s.getV x ∧ Frame { delay := true } s t) ∧
    (∃ t, exec (.setSound x) s = .next t ∧ t.ST = s.getV x ∧ Frame { sound := true } s t)

/-- R94, R162, R164, R165, whole steps: a timer set to v ends the step at v - 1, or 0 for v = 0; Load from delay timer
copies the value `DT` had at the start of the step, and `DT` is then decremented. -/
def Obligations.TimerStepsTick : Prop :=
  ∀ (x : Reg) (s : State), s.Running →
    (s.fetch = some (0xF#4 ++ x ++ 0x15#8) → ∃ t, step s = .next t ∧ t.pc = s.pc + 2 ∧
      t.DT.toNat = (s.getV x).toNat - 1 ∧ t.ST.toNat = s.ST.toNat - 1) ∧
    (s.fetch = some (0xF#4 ++ x ++ 0x18#8) → ∃ t, step s = .next t ∧ t.pc = s.pc + 2 ∧
      t.ST.toNat = (s.getV x).toNat - 1 ∧ t.DT.toNat = s.DT.toNat - 1) ∧
    (s.fetch = some (0xF#4 ++ x ++ 0x07#8) → ∃ t, step s = .next t ∧ t.pc = s.pc + 2 ∧
      t.getV x = s.DT ∧ t.DT.toNat = s.DT.toNat - 1)
end

