-- ==== Sys2Proof/Laws/Decode.lean ====
section
/-! SUPPORT. The laws of the instruction fields: what each field of a word written as a concatenation is, and a word
from its fields (spec 30_encoding.md R71, R72). -/

namespace Sys2Proof

/-- Concatenation as arithmetic on numbers. -/
theorem append_toNat (m n : Nat) (a : BitVec m) (b : BitVec n) :
    (a ++ b).toNat = a.toNat * 2 ^ n + b.toNat := by
  rw [BitVec.toNat_append, ← Nat.shiftLeft_add_eq_or_of_lt b.isLt, Nat.shiftLeft_eq]

/-! ## The fields of a word given nibble by nibble -/

section
variable (f x y n : Nibble)
@[simp] theorem fieldFam_nibbles : fieldFam (f ++ x ++ y ++ n : Word) = f := by
  apply BitVec.eq_of_toNat_eq
  have := f.isLt; have := x.isLt; have := y.isLt; have := n.isLt
  simp only [fieldFam, BitVec.extractLsb'_toNat, append_toNat, Nat.shiftRight_eq_div_pow]
  omega
@[simp] theorem fieldX_nibbles : fieldX (f ++ x ++ y ++ n : Word) = x := by
  apply BitVec.eq_of_toNat_eq
  have := f.isLt; have := x.isLt; have := y.isLt; have := n.isLt
  simp only [fieldX, BitVec.extractLsb'_toNat, append_toNat, Nat.shiftRight_eq_div_pow]
  omega
@[simp] theorem fieldY_nibbles : fieldY (f ++ x ++ y ++ n : Word) = y := by
  apply BitVec.eq_of_toNat_eq
  have := f.isLt; have := x.isLt; have := y.isLt; have := n.isLt
  simp only [fieldY, BitVec.extractLsb'_toNat, append_toNat, Nat.shiftRight_eq_div_pow]
  omega
@[simp] theorem fieldN_nibbles : fieldN (f ++ x ++ y ++ n : Word) = n := by
  apply BitVec.eq_of_toNat_eq
  have := f.isLt; have := x.isLt; have := y.isLt; have := n.isLt
  simp only [fieldN, BitVec.extractLsb'_toNat, append_toNat, Nat.shiftRight_eq_div_pow]
  omega
end

/-! ## The fields of a word given as family, register, byte -/

section
variable (f x : Nibble) (kk : Byte)
@[simp] theorem fieldFam_byte : fieldFam (f ++ x ++ kk : Word) = f := by
  apply BitVec.eq_of_toNat_eq
  have := f.isLt; have := x.isLt; have := kk.isLt
  simp only [fieldFam, BitVec.extractLsb'_toNat, append_toNat, Nat.shiftRight_eq_div_pow]
  omega
@[simp] theorem fieldX_byte : fieldX (f ++ x ++ kk : Word) = x := by
  apply BitVec.eq_of_toNat_eq
  have := f.isLt; have := x.isLt; have := kk.isLt
  simp only [fieldX, BitVec.extractLsb'_toNat, append_toNat, Nat.shiftRight_eq_div_pow]
  omega
@[simp] theorem fieldKK_byte : fieldKK (f ++ x ++ kk : Word) = kk := by
  apply BitVec.eq_of_toNat_eq
  have := f.isLt; have := x.isLt; have := kk.isLt
  simp only [fieldKK, BitVec.extractLsb'_toNat, append_toNat, Nat.shiftRight_eq_div_pow]
  omega
end

/-! ## The fields of a word given as family, address -/

section
variable (f : Nibble) (nnn : Addr)
@[simp] theorem fieldFam_addr : fieldFam (f ++ nnn : Word) = f := by
  apply BitVec.eq_of_toNat_eq
  have := f.isLt; have := nnn.isLt
  simp only [fieldFam, BitVec.extractLsb'_toNat, append_toNat, Nat.shiftRight_eq_div_pow]
  omega
@[simp] theorem fieldNNN_addr : fieldNNN (f ++ nnn : Word) = nnn := by
  apply BitVec.eq_of_toNat_eq
  have := f.isLt; have := nnn.isLt
  simp only [fieldNNN, BitVec.extractLsb'_toNat, append_toNat, Nat.shiftRight_eq_div_pow]
  omega
end

/-! ## A word from its fields -/

theorem word_eq_nibbles (op : Word) : op = fieldFam op ++ fieldX op ++ fieldY op ++ fieldN op := by
  apply BitVec.eq_of_toNat_eq
  have := op.isLt
  simp only [fieldFam, fieldX, fieldY, fieldN, BitVec.extractLsb'_toNat, append_toNat,
    Nat.shiftRight_eq_div_pow]
  omega

theorem word_eq_byte (op : Word) : op = fieldFam op ++ fieldX op ++ fieldKK op := by
  apply BitVec.eq_of_toNat_eq
  have := op.isLt
  simp only [fieldFam, fieldX, fieldKK, BitVec.extractLsb'_toNat, append_toNat,
    Nat.shiftRight_eq_div_pow]
  omega

theorem word_eq_addr (op : Word) : op = fieldFam op ++ fieldNNN op := by
  apply BitVec.eq_of_toNat_eq
  have := op.isLt
  simp only [fieldFam, fieldNNN, BitVec.extractLsb'_toNat, append_toNat,
    Nat.shiftRight_eq_div_pow]
  omega

/-- The bytes of a word, the high one first, are the word again (R54). -/
theorem wordOfBytes_bytes (op : Word) : wordOfBytes (highByte op) (lowByte op) = op := by
  apply BitVec.eq_of_toNat_eq
  have := op.isLt
  simp only [wordOfBytes, highByte, lowByte, BitVec.extractLsb'_toNat, append_toNat,
    Nat.shiftRight_eq_div_pow]
  omega

/-- `op = Mem[pc] * 256 + Mem[pc+1]` (R54, R91). -/
theorem wordOfBytes_toNat (hi lo : Byte) : (wordOfBytes hi lo).toNat = hi.toNat * 256 + lo.toNat := by
  exact append_toNat 8 8 hi lo

/-! ## Decode, family by family (R74) -/

/-- The sixteen families. -/
theorem nibble_cases (f : Nibble) :
    f = 0x0#4 ∨ f = 0x1#4 ∨ f = 0x2#4 ∨ f = 0x3#4 ∨ f = 0x4#4 ∨ f = 0x5#4 ∨ f = 0x6#4 ∨ f = 0x7#4 ∨
    f = 0x8#4 ∨ f = 0x9#4 ∨ f = 0xA#4 ∨ f = 0xB#4 ∨ f = 0xC#4 ∨ f = 0xD#4 ∨ f = 0xE#4 ∨ f = 0xF#4 := by
  revert f; decide

section
variable (w : Word)
theorem decode_family0 (h : fieldFam w = 0x0#4) : decode w = decodeFamily0 w := by simp [decode, h]
theorem decode_family1 (h : fieldFam w = 0x1#4) : decode w = some (.jump (fieldNNN w)) := by simp [decode, h]
theorem decode_family2 (h : fieldFam w = 0x2#4) : decode w = some (.call (fieldNNN w)) := by simp [decode, h]
theorem decode_family3 (h : fieldFam w = 0x3#4) : decode w = some (.skipEqImm (fieldX w) (fieldKK w)) := by simp [decode, h]
theorem decode_family4 (h : fieldFam w = 0x4#4) : decode w = some (.skipNeImm (fieldX w) (fieldKK w)) := by simp [decode, h]
theorem decode_family5 (h : fieldFam w = 0x5#4) : decode w = some (.skipEqReg (fieldX w) (fieldY w) (fieldN w)) := by simp [decode, h]
theorem decode_family6 (h : fieldFam w = 0x6#4) : decode w = some (.loadImm (fieldX w) (fieldKK w)) := by simp [decode, h]
theorem decode_family7 (h : fieldFam w = 0x7#4) : decode w = some (.addImm (fieldX w) (fieldKK w)) := by simp [decode, h]
theorem decode_family8 (h : fieldFam w = 0x8#4) : decode w = decodeFamily8 w := by simp [decode, h]
theorem decode_family9 (h : fieldFam w = 0x9#4) : decode w = some (.skipNeReg (fieldX w) (fieldY w) (fieldN w)) := by simp [decode, h]
theorem decode_familyA (h : fieldFam w = 0xA#4) : decode w = some (.loadIndexImm (fieldNNN w)) := by simp [decode, h]
theorem decode_familyB (h : fieldFam w = 0xB#4) : decode w = some (.jumpOffset (fieldNNN w)) := by simp [decode, h]
theorem decode_familyC (h : fieldFam w = 0xC#4) : decode w = some (.random (fieldX w) (fieldKK w)) := by simp [decode, h]
theorem decode_familyD (h : fieldFam w = 0xD#4) : decode w = some (.drawSprite (fieldX w) (fieldY w) (fieldN w)) := by simp [decode, h]
theorem decode_familyE (h : fieldFam w = 0xE#4) : decode w = decodeFamilyE w := by simp [decode, h]
theorem decode_familyF (h : fieldFam w = 0xF#4) : decode w = decodeFamilyF w := by simp [decode, h]
end

/-- The canonical spelling is a fixed point, and it is well formed (R78). -/
theorem canonical_wellFormed (i : Instr) : i.canonical.wellFormed = true := by
  cases i <;> rfl

/-- A well-formed instruction is its own canonical spelling (R78). -/
theorem canonical_of_wellFormed (i : Instr) (h : i.wellFormed = true) : i.canonical = i := by
  cases i <;> simp_all [Instr.wellFormed, Instr.canonical]

end Sys2Proof
end

