-- ==== Sys2Proof/Laws/State.lean ====
section
/-! SUPPORT. The small lemmas of the state's operations: one per field per update, so that no later proof unfolds a
record update. -/

namespace Sys2Proof.Machine

/-! ## Registers -/

@[simp] theorem getV_setV (s : State) (x y : Reg) (v : Byte) :
    (s.setV x v).getV y = if x = y then v else s.getV y := by
  simp only [State.getV, State.setV, Vector.getElem_set, BitVec.toNat_inj]

theorem getV_setV_same (s : State) (x : Reg) (v : Byte) : (s.setV x v).getV x = v := by simp

theorem getV_setV_other (s : State) (x y : Reg) (v : Byte) (h : x ≠ y) : (s.setV x v).getV y = s.getV y := by
  simp [h]

section
variable (s : State) (x : Reg) (v : Byte)
@[simp] theorem setV_pc : (s.setV x v).pc = s.pc := rfl
@[simp] theorem setV_I : (s.setV x v).I = s.I := rfl
@[simp] theorem setV_stack : (s.setV x v).stack = s.stack := rfl
@[simp] theorem setV_sp : (s.setV x v).sp = s.sp := rfl
@[simp] theorem setV_DT : (s.setV x v).DT = s.DT := rfl
@[simp] theorem setV_ST : (s.setV x v).ST = s.ST := rfl
@[simp] theorem setV_keys : (s.setV x v).keys = s.keys := rfl
@[simp] theorem setV_fb : (s.setV x v).fb = s.fb := rfl
@[simp] theorem setV_mem : (s.setV x v).mem = s.mem := rfl
@[simp] theorem setV_fault : (s.setV x v).fault = s.fault := rfl
@[simp] theorem setV_rnd : (s.setV x v).rnd = s.rnd := rfl
@[simp] theorem setV_inputs : (s.setV x v).inputs = s.inputs := rfl
@[simp] theorem setV_inputIndex : (s.setV x v).inputIndex = s.inputIndex := rfl
end

/-! ## `getV` reads only the registers -/

section
variable (s : State) (x : Reg)
@[simp] theorem getV_pc (p : Word) : { s with pc := p }.getV x = s.getV x := rfl
@[simp] theorem getV_I (w : Word) : { s with I := w }.getV x = s.getV x := rfl
@[simp] theorem getV_DT (b : Byte) : { s with DT := b }.getV x = s.getV x := rfl
@[simp] theorem getV_ST (b : Byte) : { s with ST := b }.getV x = s.getV x := rfl
@[simp] theorem getV_fb (fb : FrameBuffer) : { s with fb := fb }.getV x = s.getV x := rfl
@[simp] theorem getV_mem (m : Memory) : { s with mem := m }.getV x = s.getV x := rfl
@[simp] theorem getV_keys (k : Word) : { s with keys := k }.getV x = s.getV x := rfl
@[simp] theorem getV_rnd (b : Byte) : { s with rnd := b }.getV x = s.getV x := rfl
end

/-! ## A range of registers -/

section
variable (s : State) (i : Nat) (vs : List Byte)
@[simp] theorem setRegs_pc : (s.setRegs i vs).pc = s.pc := by
  induction vs generalizing s i with | nil => rfl | cons v vs ih => simp [State.setRegs, ih]
@[simp] theorem setRegs_I : (s.setRegs i vs).I = s.I := by
  induction vs generalizing s i with | nil => rfl | cons v vs ih => simp [State.setRegs, ih]
@[simp] theorem setRegs_stack : (s.setRegs i vs).stack = s.stack := by
  induction vs generalizing s i with | nil => rfl | cons v vs ih => simp [State.setRegs, ih]
@[simp] theorem setRegs_sp : (s.setRegs i vs).sp = s.sp := by
  induction vs generalizing s i with | nil => rfl | cons v vs ih => simp [State.setRegs, ih]
@[simp] theorem setRegs_DT : (s.setRegs i vs).DT = s.DT := by
  induction vs generalizing s i with | nil => rfl | cons v vs ih => simp [State.setRegs, ih]
@[simp] theorem setRegs_ST : (s.setRegs i vs).ST = s.ST := by
  induction vs generalizing s i with | nil => rfl | cons v vs ih => simp [State.setRegs, ih]
@[simp] theorem setRegs_keys : (s.setRegs i vs).keys = s.keys := by
  induction vs generalizing s i with | nil => rfl | cons v vs ih => simp [State.setRegs, ih]
@[simp] theorem setRegs_fb : (s.setRegs i vs).fb = s.fb := by
  induction vs generalizing s i with | nil => rfl | cons v vs ih => simp [State.setRegs, ih]
@[simp] theorem setRegs_mem : (s.setRegs i vs).mem = s.mem := by
  induction vs generalizing s i with | nil => rfl | cons v vs ih => simp [State.setRegs, ih]
@[simp] theorem setRegs_fault : (s.setRegs i vs).fault = s.fault := by
  induction vs generalizing s i with | nil => rfl | cons v vs ih => simp [State.setRegs, ih]
@[simp] theorem setRegs_rnd : (s.setRegs i vs).rnd = s.rnd := by
  induction vs generalizing s i with | nil => rfl | cons v vs ih => simp [State.setRegs, ih]
@[simp] theorem setRegs_inputs : (s.setRegs i vs).inputs = s.inputs := by
  induction vs generalizing s i with | nil => rfl | cons v vs ih => simp [State.setRegs, ih]
@[simp] theorem setRegs_inputIndex : (s.setRegs i vs).inputIndex = s.inputIndex := by
  induction vs generalizing s i with | nil => rfl | cons v vs ih => simp [State.setRegs, ih]
end

/-- Writing a range of registers: register `i + k` holds the k-th value, every other one what it held. -/
theorem getV_setRegs (s : State) (i : Nat) (vs : List Byte) (h : i + vs.length ≤ 16) (x : Reg) :
    (s.setRegs i vs).getV x =
      if _hx : i ≤ x.toNat ∧ x.toNat < i + vs.length then vs[x.toNat - i]'(by omega) else s.getV x := by
  induction vs generalizing s i with
  | nil =>
    have hn : ¬(i ≤ x.toNat ∧ x.toNat < i + 0) := by omega
    simp only [State.setRegs, List.length_nil, hn, dite_false]
  | cons v vs ih =>
    have hlen : i + 1 + vs.length ≤ 16 := by simpa [Nat.add_assoc, Nat.add_comm 1] using h
    have hi : i < 16 := by simp at h; omega
    rw [State.setRegs, ih _ _ hlen, getV_setV]
    have heq : (BitVec.ofNat 4 i = x) ↔ i = x.toNat := by
      rw [← BitVec.toNat_inj, BitVec.toNat_ofNat, Nat.mod_eq_of_lt (by simpa using hi)]
    by_cases hx : i = x.toNat
    · subst hx
      simp
    · by_cases hr : i + 1 ≤ x.toNat ∧ x.toNat < i + 1 + vs.length
      · have hr' : i ≤ x.toNat ∧ x.toNat < i + (v :: vs).length := by simp; omega
        have hsub : x.toNat - i = (x.toNat - (i + 1)) + 1 := by omega
        rw [dif_pos hr, dif_pos hr']
        simp [hsub]
      · have hr' : ¬(i ≤ x.toNat ∧ x.toNat < i + (v :: vs).length) := by simp; omega
        rw [dif_neg hr, dif_neg hr']
        simp [heq, hx]

/-! ## Program counter, timers, faults, inputs -/

section
variable (s : State)
@[simp] theorem advance_pc : s.advance.pc = s.pc + 2 := rfl
@[simp] theorem advance_I : s.advance.I = s.I := rfl
@[simp] theorem advance_stack : s.advance.stack = s.stack := rfl
@[simp] theorem advance_sp : s.advance.sp = s.sp := rfl
@[simp] theorem advance_DT : s.advance.DT = s.DT := rfl
@[simp] theorem advance_ST : s.advance.ST = s.ST := rfl
@[simp] theorem advance_keys : s.advance.keys = s.keys := rfl
@[simp] theorem advance_fb : s.advance.fb = s.fb := rfl
@[simp] theorem advance_mem : s.advance.mem = s.mem := rfl
@[simp] theorem advance_fault : s.advance.fault = s.fault := rfl
@[simp] theorem advance_rnd : s.advance.rnd = s.rnd := rfl
@[simp] theorem advance_inputs : s.advance.inputs = s.inputs := rfl
@[simp] theorem advance_inputIndex : s.advance.inputIndex = s.inputIndex := rfl
@[simp] theorem advance_getV (x : Reg) : s.advance.getV x = s.getV x := rfl

@[simp] theorem tick_pc : s.tick.pc = s.pc := rfl
@[simp] theorem tick_I : s.tick.I = s.I := rfl
@[simp] theorem tick_stack : s.tick.stack = s.stack := rfl
@[simp] theorem tick_sp : s.tick.sp = s.sp := rfl
@[simp] theorem tick_DT : s.tick.DT = tickDown s.DT := rfl
@[simp] theorem tick_ST : s.tick.ST = tickDown s.ST := rfl
@[simp] theorem tick_keys : s.tick.keys = s.keys := rfl
@[simp] theorem tick_fb : s.tick.fb = s.fb := rfl
@[simp] theorem tick_mem : s.tick.mem = s.mem := rfl
@[simp] theorem tick_fault : s.tick.fault = s.fault := rfl
@[simp] theorem tick_rnd : s.tick.rnd = s.rnd := rfl
@[simp] theorem tick_inputs : s.tick.inputs = s.inputs := rfl
@[simp] theorem tick_inputIndex : s.tick.inputIndex = s.inputIndex := rfl
@[simp] theorem tick_getV (x : Reg) : s.tick.getV x = s.getV x := rfl

@[simp] theorem supplyInputs_pc : s.supplyInputs.pc = s.pc := rfl
@[simp] theorem supplyInputs_I : s.supplyInputs.I = s.I := rfl
@[simp] theorem supplyInputs_stack : s.supplyInputs.stack = s.stack := rfl
@[simp] theorem supplyInputs_sp : s.supplyInputs.sp = s.sp := rfl
@[simp] theorem supplyInputs_DT : s.supplyInputs.DT = s.DT := rfl
@[simp] theorem supplyInputs_ST : s.supplyInputs.ST = s.ST := rfl
@[simp] theorem supplyInputs_keys : s.supplyInputs.keys = s.nextInput.keys := rfl
@[simp] theorem supplyInputs_fb : s.supplyInputs.fb = s.fb := rfl
@[simp] theorem supplyInputs_mem : s.supplyInputs.mem = s.mem := rfl
@[simp] theorem supplyInputs_fault : s.supplyInputs.fault = s.fault := rfl
@[simp] theorem supplyInputs_rnd : s.supplyInputs.rnd = s.nextInput.rnd := rfl
@[simp] theorem supplyInputs_inputs : s.supplyInputs.inputs = s.inputs.tail := rfl
@[simp] theorem supplyInputs_inputIndex : s.supplyInputs.inputIndex = s.inputIndex + 1 := rfl
@[simp] theorem supplyInputs_getV (x : Reg) : s.supplyInputs.getV x = s.getV x := rfl
end

section
variable (s : State) (c : Fault) (p w : Word)
@[simp] theorem takeFault_pc : (s.takeFault c p w).pc = p := rfl
@[simp] theorem takeFault_I : (s.takeFault c p w).I = s.I := rfl
@[simp] theorem takeFault_stack : (s.takeFault c p w).stack = s.stack := rfl
@[simp] theorem takeFault_sp : (s.takeFault c p w).sp = s.sp := rfl
@[simp] theorem takeFault_mem : (s.takeFault c p w).mem = s.mem := rfl
@[simp] theorem takeFault_fault : (s.takeFault c p w).fault = some ⟨c, p, w⟩ := rfl
@[simp] theorem takeFault_getV (x : Reg) : (s.takeFault c p w).getV x = s.getV x := rfl
end

/-- The fault entry of a handler is the state `faulted` names. -/
theorem raise_eq_faulted (s : State) (c : Fault) (i : Instr) : s.raise c i = s.faulted c i := rfl

/-- A handler's fault undoes the advance: the state is the one before the step, with the record (R95). -/
theorem advance_raise (s : State) (c : Fault) (i : Instr) :
    s.advance.raise c i = { s with fault := some ⟨c, s.pc, encode i⟩ } := by
  have hpc : s.pc + 2 - 2 = s.pc := by bv_omega
  simp only [State.raise, State.takeFault, State.advance, hpc]

/-- Every field that a skip leaves: only `pc` may move, by 2. -/
theorem skipIf_eq (s : State) (b : Bool) :
    s.skipIf b = { s with pc := if b then s.pc + 2 else s.pc } := by
  cases b <;> rfl

/-- A timer's countdown as a number (R26). -/
theorem tickDown_toNat (t : Byte) : (tickDown t).toNat = t.toNat - 1 := by
  unfold tickDown
  split
  · next h => subst h; rfl
  · next h =>
    have h0 : t.toNat ≠ 0 := fun hz => h (BitVec.eq_of_toNat_eq (by simpa using hz))
    have := t.isLt
    rw [BitVec.toNat_sub]
    simp
    omega

/-- The end of a step that faulted. -/
theorem finish_of_fault (s : State) (h : s.fault.isSome) : s.finish = s := by simp [State.finish, h]

/-- The end of a step that did not fault. -/
theorem finish_of_running (s : State) (h : s.fault = none) : s.finish = s.tick.supplyInputs := by
  simp [State.finish, h]

/-- A guarded handler answers one of two states: the fault entry of the failing check, or its effect. -/
theorem guarded_cases (s : State) (check : Option Fault) (i : Instr) (effect t : State)
    (h : s.guarded check i effect = .next t) :
    (∃ c, check = some c ∧ t = s.raise c i) ∨ (check = none ∧ t = effect) := by
  unfold State.guarded at h
  split at h <;> (injection h with h; subst h; simp)

/-- A full stack refuses a push; any other stores the value at `SP` and raises `SP` by one (R102). -/
theorem push_cases (s : State) (w : Word) :
    (s.push w = none ∧ s.sp.val = 16) ∨
    ∃ h : s.sp.val < 16, s.push w =
      some { s with stack := s.stack.set s.sp.val w h, sp := ⟨s.sp.val + 1, by omega⟩ } := by
  by_cases h : s.sp.val < 16
  · exact .inr ⟨h, by simp [State.push, h]⟩
  · exact .inl ⟨by simp [State.push, h], by omega⟩

/-- An empty stack refuses a pop; any other lowers `SP` by one and gives the entry there (R100). -/
theorem pop_cases (s : State) :
    (s.pop = none ∧ s.sp.val = 0) ∨
    ∃ h : 0 < s.sp.val, s.pop =
      some (s.stack[s.sp.val - 1]'(by omega), { s with sp := ⟨s.sp.val - 1, by omega⟩ }) := by
  by_cases h : 0 < s.sp.val
  · exact .inr ⟨h, by simp [State.pop, h]⟩
  · exact .inl ⟨by simp [State.pop, h], by omega⟩

end Sys2Proof.Machine
end

