-- ==== Sys2Proof/Laws/FrameBuffer.lean ====
section
/-! SUPPORT. The laws of the framebuffer and of drawing a list of cells (spec 44_display.md). -/

namespace Sys2Proof.Machine

@[simp] theorem pixel_allOff (r c : Nat) : FrameBuffer.allOff.pixel r c = false := by
  unfold FrameBuffer.pixel FrameBuffer.allOff
  split <;> simp

theorem pixel_outside (fb : FrameBuffer) (r c : Nat) (h : ¬(r < 32 ∧ c < 64)) : fb.pixel r c = false := by
  simp only [FrameBuffer.pixel, h, dite_false]

/-- Toggling a cell of the grid changes that pixel and no other (R151). -/
theorem pixel_toggle (fb : FrameBuffer) (r c i j : Nat) (h : r < 32 ∧ c < 64) :
    (fb.toggle r c).pixel i j = (fb.pixel i j ^^ decide (i = r ∧ j = c)) := by
  by_cases hij : i < 32 ∧ j < 64
  · simp only [FrameBuffer.pixel, FrameBuffer.toggle, h, hij, dite_true, and_self, Vector.getElem_set]
    by_cases hi : r = i
    · subst hi
      simp only [if_true, Vector.getElem_set]
      by_cases hj : c = j
      · subst hj; simp
      · simp [hj, Ne.symm hj]
    · simp [hi, Ne.symm hi]
  · rw [pixel_outside _ _ _ hij, pixel_outside _ _ _ hij]
    have hne : ¬(i = r ∧ j = c) := by rintro ⟨rfl, rfl⟩; exact hij h
    simp [hne]

/-- Two framebuffers with the same pixels are the same. -/
theorem framebuffer_ext (fb gb : FrameBuffer) (h : ∀ r c, fb.pixel r c = gb.pixel r c) : fb = gb := by
  apply Vector.ext
  intro r hr
  apply Vector.ext
  intro c hc
  have := h r c
  simpa [FrameBuffer.pixel, hr, hc] using this

/-- Drawing distinct cells of the grid toggles exactly those cells. -/
theorem pixel_drawCells (fb : FrameBuffer) (cells : List (Nat × Nat)) (hnd : cells.Nodup)
    (hin : ∀ p ∈ cells, p.1 < 32 ∧ p.2 < 64) (i j : Nat) :
    (fb.drawCells cells).1.pixel i j = (fb.pixel i j ^^ decide ((i, j) ∈ cells)) := by
  induction cells generalizing fb with
  | nil => simp [FrameBuffer.drawCells]
  | cons p cells ih =>
    obtain ⟨r, c⟩ := p
    obtain ⟨hnot, hnd⟩ := List.nodup_cons.mp hnd
    have hp := hin (r, c) (by simp)
    simp only [FrameBuffer.drawCells]
    rw [ih _ hnd (fun q hq => hin q (by simp [hq])), pixel_toggle _ _ _ _ _ hp]
    by_cases hij : i = r ∧ j = c
    · obtain ⟨rfl, rfl⟩ := hij
      simp [hnot]
    · have hne : ¬((i, j) = (r, c)) := by simpa using hij
      simp [hij, List.mem_cons, hne]

/-- Drawing distinct cells of the grid reports a collision exactly when one of them was on before. -/
theorem drawCells_collision (fb : FrameBuffer) (cells : List (Nat × Nat)) (hnd : cells.Nodup)
    (hin : ∀ p ∈ cells, p.1 < 32 ∧ p.2 < 64) :
    (fb.drawCells cells).2 = true ↔ ∃ p ∈ cells, fb.pixel p.1 p.2 = true := by
  induction cells generalizing fb with
  | nil => simp [FrameBuffer.drawCells]
  | cons p cells ih =>
    obtain ⟨r, c⟩ := p
    obtain ⟨hnot, hnd⟩ := List.nodup_cons.mp hnd
    have hp := hin (r, c) (by simp)
    simp only [FrameBuffer.drawCells, Bool.or_eq_true, List.mem_cons, exists_eq_or_imp]
    rw [ih _ hnd (fun q hq => hin q (by simp [hq]))]
    refine or_congr Iff.rfl ⟨?_, ?_⟩
    · rintro ⟨q, hq, hpix⟩
      refine ⟨q, hq, ?_⟩
      rw [pixel_toggle _ _ _ _ _ hp] at hpix
      have hne : ¬(q.1 = r ∧ q.2 = c) := by rintro ⟨rfl, rfl⟩; exact hnot hq
      simpa [hne] using hpix
    · rintro ⟨q, hq, hpix⟩
      refine ⟨q, hq, ?_⟩
      rw [pixel_toggle _ _ _ _ _ hp]
      have hne : ¬(q.1 = r ∧ q.2 = c) := by rintro ⟨rfl, rfl⟩; exact hnot hq
      simpa [hne] using hpix

/-! ## The cells of a sprite -/

theorem mem_rowCells (xpos cy : Nat) (b : Byte) (i j : Nat) :
    (i, j) ∈ rowCells xpos cy b ↔
      i = cy ∧ cy ≤ 31 ∧ xpos ≤ j ∧ j < xpos + 8 ∧ j ≤ 63 ∧ b.getLsbD (7 - (j - xpos)) = true := by
  simp only [rowCells, List.mem_filterMap, List.mem_range, Option.ite_none_right_eq_some, Option.some.injEq,
    Prod.mk.injEq]
  constructor
  · rintro ⟨col, hcol, ⟨hb, hx, hy⟩, rfl, rfl⟩
    refine ⟨rfl, hy, by omega, by omega, hx, ?_⟩
    rw [show xpos + col - xpos = col by omega]
    exact hb
  · rintro ⟨rfl, hy, hle, hlt, hx, hb⟩
    exact ⟨j - xpos, by omega, ⟨hb, by omega, hy⟩, rfl, by omega⟩

theorem mem_spriteCells (xpos cy : Nat) (rows : List Byte) (i j : Nat) :
    (i, j) ∈ spriteCells xpos cy rows ↔
      i ≤ 31 ∧ xpos ≤ j ∧ j < xpos + 8 ∧ j ≤ 63 ∧ cy ≤ i ∧
        ∃ h : i - cy < rows.length, (rows[i - cy]).getLsbD (7 - (j - xpos)) = true := by
  induction rows generalizing cy with
  | nil => simp [spriteCells]
  | cons b rows ih =>
    simp only [spriteCells, List.mem_append, mem_rowCells, ih]
    constructor
    · rintro (⟨rfl, h1, h2, h3, h4, h5⟩ | ⟨h1, h2, h3, h4, h5, h6, h7⟩)
      · exact ⟨h1, h2, h3, h4, Nat.le_refl _, by simp, by simpa using h5⟩
      · refine ⟨h1, h2, h3, h4, by omega, by simp; omega, ?_⟩
        have hsub : i - cy = (i - (cy + 1)) + 1 := by omega
        simpa [hsub] using h7
    · rintro ⟨h1, h2, h3, h4, h5, h6, h7⟩
      by_cases hi : i = cy
      · subst hi
        exact .inl ⟨rfl, h1, h2, h3, h4, by simpa using h7⟩
      · have hsub : i - cy = (i - (cy + 1)) + 1 := by omega
        refine .inr ⟨h1, h2, h3, h4, by omega, by simp at h6; omega, ?_⟩
        simpa [hsub] using h7

theorem rowCells_nodup (xpos cy : Nat) (b : Byte) : (rowCells xpos cy b).Nodup := by
  refine List.Nodup.filterMap ?_ List.nodup_range
  intro a a' p hp hp'
  simp only [Option.mem_def, Option.ite_none_right_eq_some, Option.some.injEq] at hp hp'
  have := hp.2.trans hp'.2.symm
  simp only [Prod.mk.injEq] at this
  omega

/-- Every target pixel of one draw is distinct: "distinct (row, col) give distinct (cx, cy)" (R151). -/
theorem spriteCells_nodup (xpos cy : Nat) (rows : List Byte) : (spriteCells xpos cy rows).Nodup := by
  induction rows generalizing cy with
  | nil => simp [spriteCells]
  | cons b rows ih =>
    refine List.nodup_append.mpr ⟨rowCells_nodup _ _ _, ih _, ?_⟩
    rintro ⟨i, j⟩ hp ⟨k, l⟩ hq heq
    have h1 := (mem_rowCells _ _ _ _ _).mp hp
    have h2 := (mem_spriteCells _ _ _ _ _).mp hq
    simp only [Prod.mk.injEq] at heq
    omega

theorem spriteCells_inside (xpos cy : Nat) (rows : List Byte) (p : Nat × Nat)
    (h : p ∈ spriteCells xpos cy rows) : p.1 < 32 ∧ p.2 < 64 := by
  obtain ⟨i, j⟩ := p
  have := (mem_spriteCells _ _ _ _ _).mp h
  exact ⟨by simp; omega, by simp; omega⟩

end Sys2Proof.Machine
end

