-- ==== Sys2Proof/Laws/Memory.lean ====
section
/-! SUPPORT. The laws of memory: reading after writing, the canonical form, the font ROM, and the checks on a range of
addresses. -/

namespace Sys2Proof.Machine

/-! ## The list of cells -/

theorem lookupCell_putCell (cs : List Host.Cell) (a b : Nat) (v : Byte)
    (hs : cs.Pairwise fun p q => p.1 < q.1) :
    lookupCell (putCell cs a v) b = if b = a then some v else lookupCell cs b := by
  induction cs with
  | nil => simp [putCell, lookupCell]
  | cons c cs ih =>
    obtain ⟨d, w⟩ := c
    obtain ⟨hd, hs⟩ := List.pairwise_cons.mp hs
    simp only [putCell]
    split
    · simp [lookupCell]
    · split
      · next h => subst h; by_cases hb : b = a <;> simp [lookupCell, hb]
      · next h1 h2 =>
        simp only [lookupCell, ih hs]
        by_cases hb : b = d
        · subst hb; simp [Ne.symm h2]
        · simp [hb]

theorem lookupCell_none_of_lt (cs : List Host.Cell) (a : Nat) (h : ∀ c ∈ cs, a < c.1) : lookupCell cs a = none := by
  induction cs with
  | nil => rfl
  | cons c cs ih =>
    have hc := h c (by simp)
    have hne : a ≠ c.1 := by omega
    simp [lookupCell, hne, ih fun d hd => h d (by simp [hd])]

theorem lookupCell_dropCell (cs : List Host.Cell) (a b : Nat) (hs : cs.Pairwise fun p q => p.1 < q.1) :
    lookupCell (dropCell cs a) b = if b = a then none else lookupCell cs b := by
  induction cs with
  | nil => simp [dropCell, lookupCell]
  | cons c cs ih =>
    obtain ⟨d, w⟩ := c
    obtain ⟨hd, hs⟩ := List.pairwise_cons.mp hs
    simp only [dropCell]
    split
    · next h =>
      subst h
      by_cases hb : b = a
      · subst hb; simp [lookupCell_none_of_lt cs b hd]
      · simp [lookupCell, hb]
    · next h =>
      simp only [lookupCell, ih hs]
      by_cases hb : b = d
      · subst hb; simp [Ne.symm h]
      · simp [hb]

theorem mem_putCell (cs : List Host.Cell) (a : Nat) (v : Byte) (c : Host.Cell) (h : c ∈ putCell cs a v) :
    c = (a, v) ∨ c ∈ cs := by
  induction cs with
  | nil => simpa [putCell] using h
  | cons d cs ih =>
    obtain ⟨e, w⟩ := d
    simp only [putCell] at h
    split at h
    · simpa using h
    · split at h <;> simp only [List.mem_cons] at h ⊢ <;> tauto

theorem mem_dropCell (cs : List Host.Cell) (a : Nat) (c : Host.Cell) (h : c ∈ dropCell cs a) : c ∈ cs := by
  induction cs with
  | nil => simp [dropCell] at h
  | cons d cs ih =>
    obtain ⟨e, w⟩ := d
    simp only [dropCell] at h
    split at h <;> simp only [List.mem_cons] at h ⊢ <;> tauto

theorem putCell_rising (cs : List Host.Cell) (a : Nat) (v : Byte) (hs : cs.Pairwise fun p q => p.1 < q.1) :
    (putCell cs a v).Pairwise fun p q => p.1 < q.1 := by
  induction cs with
  | nil => simp [putCell]
  | cons d cs ih =>
    obtain ⟨e, w⟩ := d
    obtain ⟨he, htail⟩ := List.pairwise_cons.mp hs
    simp only [putCell]
    split
    · next hlt =>
      refine List.pairwise_cons.mpr ⟨fun c hc => ?_, hs⟩
      rcases List.mem_cons.mp hc with rfl | hc
      · exact hlt
      · exact Nat.lt_trans hlt (he c hc)
    · split
      · next heq => subst heq; exact List.pairwise_cons.mpr ⟨he, htail⟩
      · refine List.pairwise_cons.mpr ⟨fun c hc => ?_, ih htail⟩
        rcases mem_putCell cs a v c hc with rfl | hc
        · simp; omega
        · exact he c hc

theorem dropCell_rising (cs : List Host.Cell) (a : Nat) (hs : cs.Pairwise fun p q => p.1 < q.1) :
    (dropCell cs a).Pairwise fun p q => p.1 < q.1 := by
  induction cs with
  | nil => simp [dropCell]
  | cons d cs ih =>
    obtain ⟨e, w⟩ := d
    obtain ⟨he, htail⟩ := List.pairwise_cons.mp hs
    simp only [dropCell]
    split
    · exact htail
    · exact List.pairwise_cons.mpr ⟨fun c hc => he c (mem_dropCell cs a c hc), ih htail⟩

theorem not_mem_dropCell (cs : List Host.Cell) (a : Nat) (c : Host.Cell) (hs : cs.Pairwise fun p q => p.1 < q.1)
    (h : c ∈ dropCell cs a) : c.1 ≠ a := by
  induction cs with
  | nil => simp [dropCell] at h
  | cons d cs ih =>
    obtain ⟨e, w⟩ := d
    obtain ⟨he, htail⟩ := List.pairwise_cons.mp hs
    simp only [dropCell] at h
    split at h
    · next heq => subst heq; have := he c h; omega
    · next hne =>
      rcases List.mem_cons.mp h with rfl | h
      · exact fun he => hne he.symm
      · exact ih htail h

theorem lookupCell_mem (cs : List Host.Cell) (a : Nat) (v : Byte) (h : lookupCell cs a = some v) : (a, v) ∈ cs := by
  induction cs with
  | nil => simp [lookupCell] at h
  | cons c cs ih =>
    obtain ⟨d, w⟩ := c
    simp only [lookupCell] at h
    split at h
    · next heq => injection h with h; simp [heq, h]
    · exact List.mem_cons_of_mem _ (ih h)

/-! ## Reading and writing -/

@[simp] theorem write_rom (m : Memory) (a : Nat) (v : Byte) : (m.write a v).rom = m.rom := rfl

@[simp] theorem write_unlisted (m : Memory) (a b : Nat) (v : Byte) : (m.write a v).unlisted b = m.unlisted b := rfl

/-- A read gives the byte last written there, and every other byte is as before (R53, R59, R60). -/
theorem read_write (m : Memory) (a b : Nat) (v : Byte) (hm : m.wf) :
    (m.write a v).read b = if b = a then v else m.read b := by
  have hu : (m.write a v).unlisted b = m.unlisted b := rfl
  rw [Memory.read, Memory.read, hu]
  simp only [Memory.write]
  split
  · next hv =>
    rw [lookupCell_dropCell _ _ _ hm.1]
    by_cases hb : b = a
    · subst hb; simp [hv]
    · simp [hb]
  · rw [lookupCell_putCell _ _ _ _ hm.1]
    by_cases hb : b = a <;> simp [hb]

/-- A write inside the memory keeps the canonical form. -/
theorem write_wf (m : Memory) (a : Nat) (v : Byte) (hm : m.wf) (ha : a < 4096) : (m.write a v).wf := by
  obtain ⟨hs, hc⟩ := hm
  by_cases hv : v = m.unlisted a
  · have hcells : (m.write a v).cells = dropCell m.cells a := by simp [Memory.write, hv]
    refine ⟨by rw [hcells]; exact dropCell_rising _ _ hs, fun c h => ?_⟩
    rw [hcells] at h
    exact hc c (mem_dropCell _ _ _ h)
  · have hcells : (m.write a v).cells = putCell m.cells a v := by simp [Memory.write, hv]
    refine ⟨by rw [hcells]; exact putCell_rising _ _ _ hs, fun c h => ?_⟩
    rw [hcells] at h
    rcases mem_putCell _ _ _ _ h with rfl | h
    · exact ⟨ha, hv⟩
    · exact hc c h

@[simp] theorem writeBytes_rom (m : Memory) (a : Nat) (vs : List Byte) : (m.writeBytes a vs).rom = m.rom := by
  induction vs generalizing m a with
  | nil => rfl
  | cons v vs ih => simp [Memory.writeBytes, ih]

theorem writeBytes_wf (m : Memory) (a : Nat) (vs : List Byte) (hm : m.wf) (ha : a + vs.length ≤ 4096) :
    (m.writeBytes a vs).wf := by
  induction vs generalizing m a with
  | nil => exact hm
  | cons v vs ih =>
    simp only [List.length_cons] at ha
    exact ih _ _ (write_wf m a v hm (by omega)) (by omega)

/-- A run of writes: byte `a + k` holds the k-th value, every other byte what it held (R56). -/
theorem read_writeBytes (m : Memory) (a b : Nat) (vs : List Byte) (hm : m.wf) (ha : a + vs.length ≤ 4096) :
    (m.writeBytes a vs).read b =
      if h : a ≤ b ∧ b < a + vs.length then vs[b - a]'(by omega) else m.read b := by
  induction vs generalizing m a with
  | nil =>
    have hn : ¬(a ≤ b ∧ b < a + 0) := by omega
    simp only [Memory.writeBytes, List.length_nil, hn, dite_false]
  | cons v vs ih =>
    simp only [List.length_cons] at ha
    rw [Memory.writeBytes, ih _ _ (write_wf m a v hm (by omega)) (by omega), read_write _ _ _ _ hm]
    by_cases hab : b = a
    · subst hab
      simp
    · by_cases hr : a + 1 ≤ b ∧ b < a + 1 + vs.length
      · have hr' : a ≤ b ∧ b < a + (v :: vs).length := by simp; omega
        have hsub : b - a = (b - (a + 1)) + 1 := by omega
        rw [dif_pos hr, dif_pos hr']
        simp [hsub]
      · have hr' : ¬(a ≤ b ∧ b < a + (v :: vs).length) := by simp; omega
        rw [dif_neg hr, dif_neg hr']
        simp [hab]

@[simp] theorem readBytes_length (m : Memory) (a n : Nat) : (m.readBytes a n).length = n := by
  simp [Memory.readBytes]

@[simp] theorem readBytes_getElem (m : Memory) (a n k : Nat) (h : k < (m.readBytes a n).length) :
    (m.readBytes a n)[k] = m.read (a + k) := by
  simp [Memory.readBytes]

/-- In canonical form exactly the unlisted addresses read as the reset contents. -/
theorem read_eq_unlisted_iff (m : Memory) (a : Nat) (hm : m.wf) :
    m.read a = m.unlisted a ↔ lookupCell m.cells a = none := by
  unfold Memory.read
  cases h : lookupCell m.cells a with
  | none => simp
  | some v => simpa using (hm.2 (a, v) (lookupCell_mem _ _ _ h)).2

theorem cells_ext (cs ds : List Host.Cell) (hc : cs.Pairwise fun p q => p.1 < q.1)
    (hd : ds.Pairwise fun p q => p.1 < q.1) (h : ∀ a, lookupCell cs a = lookupCell ds a) : cs = ds := by
  induction cs generalizing ds with
  | nil =>
    cases ds with
    | nil => rfl
    | cons d ds => have := h d.1; simp [lookupCell] at this
  | cons c cs ih =>
    cases ds with
    | nil => have := h c.1; simp [lookupCell] at this
    | cons d ds =>
      obtain ⟨a, v⟩ := c
      obtain ⟨b, w⟩ := d
      obtain ⟨hca, hcs⟩ := List.pairwise_cons.mp hc
      obtain ⟨hdb, hds⟩ := List.pairwise_cons.mp hd
      have hab : a = b := by
        by_contra hne
        rcases Nat.lt_or_gt_of_ne hne with hlt | hlt
        · have := h a
          have hds' : lookupCell ds a = none :=
            lookupCell_none_of_lt ds a fun c hc => Nat.lt_trans hlt (hdb c hc)
          simp [lookupCell, hne, hds'] at this
        · have := h b
          have hcs' : lookupCell cs b = none :=
            lookupCell_none_of_lt cs b fun c hc => Nat.lt_trans hlt (hca c hc)
          simp [lookupCell, Ne.symm hne, hcs'] at this
      subst hab
      have hvw : v = w := by have := h a; simpa [lookupCell] using this
      subst hvw
      have htail : cs = ds := ih ds hcs hds fun e => by
        by_cases he : e = a
        · subst he
          rw [lookupCell_none_of_lt cs e hca, lookupCell_none_of_lt ds e hdb]
        · have := h e; simpa [lookupCell, he] using this
      rw [htail]

/-- Equal memories are equal data: two canonical memories over one font ROM that read the same everywhere are the
same. -/
theorem memory_ext (m n : Memory) (hm : m.wf) (hn : n.wf) (hrom : m.rom = n.rom)
    (h : ∀ a, m.read a = n.read a) : m = n := by
  have hun : ∀ a, m.unlisted a = n.unlisted a := fun a => by
    cases m; cases n; cases hrom; rfl
  have hcells : m.cells = n.cells := cells_ext _ _ hm.1 hn.1 fun a => by
    cases hl : lookupCell n.cells a with
    | none =>
      exact (read_eq_unlisted_iff m a hm).mp (by rw [h a, hun a]; exact (read_eq_unlisted_iff n a hn).mpr hl)
    | some v =>
      cases hk : lookupCell m.cells a with
      | none =>
        have := (read_eq_unlisted_iff n a hn).mp (by rw [← h a, ← hun a]; exact (read_eq_unlisted_iff m a hm).mpr hk)
        rw [this] at hl; cases hl
      | some w =>
        have := h a
        simp only [Memory.read, hl, hk, Option.getD_some] at this
        rw [this]
  cases m; cases n; simp_all

/-! ## Reset, the font ROM -/

theorem reset_memory_wf (rom : FontRom) : (State.resetWith rom).mem.wf := by
  simp [State.resetWith, Memory.wf]

theorem inFont_iff (m : Memory) (a : Nat) :
    m.inFont a = true ↔ m.rom.base.val ≤ a ∧ a < m.rom.base.val + 80 := by
  simp [Memory.inFont]

/-- The font table lies in the reserved range (R51). -/
theorem font_below_program (m : Memory) (a : Nat) (h : m.inFont a = true) : a < 0x200 := by
  have := m.rom.base.isLt
  have := (inFont_iff m a).mp h
  omega

theorem unlisted_program (m : Memory) (a : Nat) (h : 0x200 ≤ a) : m.unlisted a = 0 := by
  have := m.rom.base.isLt
  have hn : ¬(m.rom.base.val ≤ a ∧ a < m.rom.base.val + 80) := by omega
  simp only [Memory.unlisted, hn, dite_false]

/-! ## The checks of R146 -/

theorem rangeFault_none (s : State) (last : Nat) : s.rangeFault last = none ↔ s.I.toNat + last ≤ 0xFFF := by
  simp [State.rangeFault, State.addr]

theorem rangeFault_some (s : State) (last : Nat) (h : 0xFFF < s.I.toNat + last) :
    s.rangeFault last = some .dataAddressOutOfRange := by
  simp [State.rangeFault, State.addr, h]

theorem storeFault_none (s : State) (last : Nat) :
    s.storeFault last = none ↔
      s.I.toNat + last ≤ 0xFFF ∧ ∀ k ≤ last, s.mem.inFont (s.I.toNat + k) = false := by
  unfold State.storeFault
  by_cases h : s.I.toNat + last ≤ 0xFFF
  · rw [(rangeFault_none s last).mpr h]
    simp [h, State.addr]
  · rw [rangeFault_some s last (by omega)]
    simp [h]

theorem storeFault_font (s : State) (last k : Nat) (h : s.I.toNat + last ≤ 0xFFF) (hk : k ≤ last)
    (hf : s.mem.inFont (s.I.toNat + k) = true) : s.storeFault last = some .fontWrite := by
  unfold State.storeFault
  rw [(rangeFault_none s last).mpr h]
  have : (List.range (last + 1)).any (fun k => s.mem.inFont (s.addr k)) = true := by
    simp only [List.any_eq_true, List.mem_range]
    exact ⟨k, by omega, hf⟩
  simp [this]

theorem storeFault_range (s : State) (last : Nat) (h : 0xFFF < s.I.toNat + last) :
    s.storeFault last = some .dataAddressOutOfRange := by
  simp [State.storeFault, rangeFault_some s last h]

end Sys2Proof.Machine
end

