-- ==== Sys2Proof/Laws/Operands.lean ====
section
/-! SUPPORT. What the operand forms, the checks, the flags and the effect of Draw sprite do, said once; and the frames
of the four shapes of update (spec 42_alu.md to 45_keypad_timers.md). -/

namespace Sys2Proof.Machine

/-! ## Checks (R146, R151, R160) -/

/-- A store's checks pass exactly when its range lies in the memory and clear of the font table. -/
theorem storeFault_iff (s : State) (last : Nat) :
    s.storeFault last = none ↔ s.inRange last ∧ ¬s.hitsFont last := by
  rw [storeFault_none]
  simp only [State.inRange, State.hitsFont, not_exists, not_and, Bool.eq_false_iff, ne_eq, inFont_iff]

/-- In range but on the font table: FontWriteFault. -/
theorem storeFault_hits (s : State) (last : Nat) (h : s.inRange last) (hf : s.hitsFont last) :
    s.storeFault last = some .fontWrite := by
  obtain ⟨k, hk, h1, h2⟩ := hf
  exact storeFault_font s last k h hk ((inFont_iff _ _).mpr ⟨h1, h2⟩)

theorem nibble_pos (n : Nibble) (h : n ≠ 0) : 0 < n.toNat := by
  have : n.toNat ≠ 0 := fun e => h (BitVec.eq_of_toNat_eq (by simpa using e))
  omega

theorem drawFault_iff (s : State) (n : Nibble) : s.drawFault n = none ↔ n = 0 ∨ s.inRange (n.toNat - 1) := by
  unfold State.drawFault
  by_cases h : n = 0
  · subst h; simp
  · simp only [nibble_pos n h, if_true, rangeFault_none, State.inRange, h, false_or]

theorem drawFault_range (s : State) (n : Nibble) (hn : n ≠ 0) (h : ¬s.inRange (n.toNat - 1)) :
    s.drawFault n = some .dataAddressOutOfRange := by
  rw [State.inRange] at h
  simp only [State.drawFault, nibble_pos n hn, if_true, rangeFault_some s (n.toNat - 1) (by omega)]

theorem keyFault_none (v : Byte) (h : v.toNat ≤ 15) : keyFault v = none := by
  simp only [keyFault]; rw [if_neg (by omega)]

theorem keyFault_some (v : Byte) (h : 15 < v.toNat) : keyFault v = some .keyIndexOutOfRange := by
  simp only [keyFault]; rw [if_pos h]

/-! ## Registers to store, keys -/

@[simp] theorem regsUpTo_length (s : State) (x : Reg) : (s.regsUpTo x).length = x.toNat + 1 := by
  simp [State.regsUpTo]

theorem lowestKey_some (s : State) (k : Nat) (hk : k ≤ 15) (h : s.keys.getLsbD k = true)
    (hl : ∀ j < k, s.keys.getLsbD j = false) : s.lowestKey = some k := by
  simp only [State.lowestKey, List.find?_range_eq_some, State.keyDown]
  exact ⟨h, by simp; omega, by simpa using hl⟩

theorem lowestKey_none (s : State) (h : s.keys = 0) : s.lowestKey = none := by
  simp [State.lowestKey, State.keyDown, h]

/-! ## Flags and shifts as numbers (R128, R130) -/

theorem shiftRightFlag_toNat (v : Byte) : (shiftRightFlag v).toNat = v.toNat % 2 := by revert v; decide

theorem shiftLeftFlag_toNat (v : Byte) : (shiftLeftFlag v).toNat = v.toNat / 128 := by revert v; decide

theorem shiftRight_toNat (v : Byte) : (v >>> 1).toNat = v.toNat / 2 := by revert v; decide

theorem shiftLeft_toNat (v : Byte) : (v <<< 1).toNat = 2 * v.toNat % 256 := by revert v; decide

/-! ## Draw sprite -/

/-- The cells a sprite toggles are those on which it has a set bit (R151, R152). -/
theorem mem_spriteCells_iff (s : State) (x y : Reg) (n : Nibble) (r c : Nat) :
    (r, c) ∈ spriteCells (spriteColumn (s.getV x)) (spriteRow (s.getV y)) (s.mem.readBytes (s.addr 0) n.toNat) ↔
      s.spriteBit x y n r c = true := by
  rw [mem_spriteCells]
  simp only [State.spriteBit, spriteColumn, spriteRow, readBytes_length, readBytes_getElem, State.addr,
    Bool.and_eq_true, decide_eq_true_eq, Nat.add_zero, exists_prop]
  constructor
  · rintro ⟨h1, h2, h3, h4, h5, h6, h7⟩
    exact ⟨⟨by omega, by omega, by omega, by omega, by omega, by omega⟩, h7⟩
  · rintro ⟨⟨h1, h2, h3, h4, h5, h6⟩, h7⟩
    exact ⟨by omega, by omega, by omega, by omega, by omega, by omega, h7⟩

/-- The pixels after the effect of Draw sprite. -/
theorem drawSprite_pixel (s : State) (x y : Reg) (n : Nibble) (r c : Nat) :
    (s.drawSprite x y n).fb.pixel r c = (s.fb.pixel r c ^^ s.spriteBit x y n r c) := by
  simp only [State.drawSprite]
  rw [pixel_drawCells _ _ (spriteCells_nodup _ _ _) (spriteCells_inside _ _ _)]
  congr 1
  rw [Bool.eq_iff_iff, decide_eq_true_eq, mem_spriteCells_iff]

/-- The flag after the effect of Draw sprite is 0 or 1, and 1 exactly on a collision (R151, R22). -/
theorem drawSprite_flag (s : State) (x y : Reg) (n : Nibble) :
    ((s.drawSprite x y n).getV 15 = 1 ∨ (s.drawSprite x y n).getV 15 = 0) ∧
    ((s.drawSprite x y n).getV 15 = 1 ↔ ∃ r c, s.spriteBit x y n r c = true ∧ s.fb.pixel r c = true) := by
  have hcol := drawCells_collision s.fb _
    (spriteCells_nodup (spriteColumn (s.getV x)) (spriteRow (s.getV y)) (s.mem.readBytes (s.addr 0) n.toNat))
    (spriteCells_inside _ _ _)
  have hflag : (s.drawSprite x y n).getV 15 = flagByte (s.fb.drawCells
      (spriteCells (spriteColumn (s.getV x)) (spriteRow (s.getV y)) (s.mem.readBytes (s.addr 0) n.toNat))).2 :=
    getV_setV_same s 15 _
  rw [hflag]
  have hex : (∃ r c, s.spriteBit x y n r c = true ∧ s.fb.pixel r c = true) ↔
      ∃ p ∈ spriteCells (spriteColumn (s.getV x)) (spriteRow (s.getV y)) (s.mem.readBytes (s.addr 0) n.toNat),
        s.fb.pixel p.1 p.2 = true := by
    constructor
    · rintro ⟨r, c, h1, h2⟩
      exact ⟨(r, c), (mem_spriteCells_iff s x y n r c).mpr h1, h2⟩
    · rintro ⟨⟨r, c⟩, h1, h2⟩
      exact ⟨r, c, (mem_spriteCells_iff s x y n r c).mp h1, h2⟩
  rw [hex, ← hcol]
  cases (s.fb.drawCells _).2 <;> simp [flagByte]

/-! ## Frames of the shapes of update -/

theorem frame_setV (s : State) (x : Reg) (v : Byte) (rs : List Reg) (h : x ∈ rs) :
    Frame { regs := rs } s (s.setV x v) := by
  constructor <;> simp
  intro y hy e
  subst e
  exact absurd h hy

theorem frame_setV_flag (s : State) (x : Reg) (v w : Byte) :
    Frame { regs := [x, 15] } s ((s.setV VF w).setV x v) := by
  constructor <;> simp [VF]
  intro y h1 h2
  simp [Ne.symm h1, Ne.symm h2]

theorem frame_pc (s : State) (p : Word) : Frame { pc := true } s { s with pc := p } := by
  constructor <;> simp

theorem frame_I (s : State) (w : Word) : Frame { I := true } s { s with I := w } := by
  constructor <;> simp

theorem frame_store (s : State) (a : Nat) (vs : List Byte) (hm : s.mem.wf) (h : a + vs.length ≤ 4096) :
    Frame { storeAt := a, storeLen := vs.length } s { s with mem := s.mem.writeBytes a vs } := by
  constructor <;> simp
  intro b hb
  rw [read_writeBytes _ _ _ _ hm h, dif_neg (by omega)]

end Sys2Proof.Machine
end

