-- ==== Sys2Proof/Laws/PerInstr.lean ====
section
/-! SUPPORT. The family RowMatch, one lemma per instruction: the word of an instruction has the fixed bits of its row
of the opcode map (spec 30_encoding.md R75). -/

namespace Sys2Proof.Laws.RowMatch

/-- The instruction's word agrees with its row's match word on the bits of the row's mask. -/
def Statement (i : Instr) : Prop := encode i &&& i.row.mask = i.row.bits

theorem and_nibbles (f x y n a b c d : Nibble) :
    (f ++ x ++ y ++ n : Word) &&& (a ++ b ++ c ++ d : Word) = (f &&& a) ++ (x &&& b) ++ (y &&& c) ++ (n &&& d) := by
  apply BitVec.eq_of_getLsbD_eq
  intro i hi
  simp only [BitVec.getLsbD_and, BitVec.getLsbD_append]
  split <;> [rfl; (split <;> [rfl; (split <;> rfl)])]

theorem and_byte (f x a b : Nibble) (kk c : Byte) :
    (f ++ x ++ kk : Word) &&& (a ++ b ++ c : Word) = (f &&& a) ++ (x &&& b) ++ (kk &&& c) := by
  apply BitVec.eq_of_getLsbD_eq
  intro i hi
  simp only [BitVec.getLsbD_and, BitVec.getLsbD_append]
  split <;> [rfl; (split <;> rfl)]

theorem and_addr (f a : Nibble) (nnn c : Addr) :
    (f ++ nnn : Word) &&& (a ++ c : Word) = (f &&& a) ++ (nnn &&& c) := by
  apply BitVec.eq_of_getLsbD_eq
  intro i hi
  simp only [BitVec.getLsbD_and, BitVec.getLsbD_append]
  split <;> rfl

/-- A word `fxy-` or `fxyn`, masked to its family. -/
theorem family_nibbles (f x y n : Nibble) : (f ++ x ++ y ++ n : Word) &&& 0xF000#16 = f ++ 0#12 := by
  refine (and_nibbles f x y n 0xF#4 0#4 0#4 0#4).trans ?_
  rw [BitVec.and_zero, BitVec.and_zero, BitVec.and_zero]
  revert f; decide

/-- A word of family 8, masked to its family and selector. -/
theorem selector_nibbles (f x y n : Nibble) : (f ++ x ++ y ++ n : Word) &&& 0xF00F#16 = f ++ 0#8 ++ n := by
  refine (and_nibbles f x y n 0xF#4 0#4 0#4 0xF#4).trans ?_
  rw [BitVec.and_zero, BitVec.and_zero]
  revert f n; decide

/-- A word `fxkk`, masked to its family. -/
theorem family_byte (f x : Nibble) (kk : Byte) : (f ++ x ++ kk : Word) &&& 0xF000#16 = f ++ 0#12 := by
  refine (and_byte f x 0xF#4 0#4 kk 0#8).trans ?_
  rw [BitVec.and_zero, BitVec.and_zero]
  revert f; decide

/-- A word whose low byte selects, masked to its family and selector. -/
theorem selector_byte (f x : Nibble) (kk : Byte) : (f ++ x ++ kk : Word) &&& 0xF0FF#16 = f ++ 0#4 ++ kk := by
  refine (and_byte f x 0xF#4 0#4 kk 0xFF#8).trans ?_
  rw [BitVec.and_zero, show kk &&& 0xFF#8 = kk from BitVec.and_allOnes, show f &&& 0xF#4 = f from BitVec.and_allOnes]

/-- A word `fnnn`, masked to its family. -/
theorem family_addr (f : Nibble) (nnn : Addr) : (f ++ nnn : Word) &&& 0xF000#16 = f ++ 0#12 := by
  refine (and_addr f 0xF#4 nnn 0#12).trans ?_
  rw [BitVec.and_zero, show f &&& 0xF#4 = f from BitVec.and_allOnes]

theorem clearDisplay (u : Nibble) : Statement (.clearDisplay u) := selector_byte 0x0#4 u 0xE0#8
theorem ret (u : Nibble) : Statement (.ret u) := selector_byte 0x0#4 u 0xEE#8
theorem jump (nnn : Addr) : Statement (.jump nnn) := family_addr 0x1#4 nnn
theorem call (nnn : Addr) : Statement (.call nnn) := family_addr 0x2#4 nnn
theorem skipEqImm (x : Reg) (kk : Byte) : Statement (.skipEqImm x kk) := family_byte 0x3#4 x kk
theorem skipNeImm (x : Reg) (kk : Byte) : Statement (.skipNeImm x kk) := family_byte 0x4#4 x kk
theorem skipEqReg (x y : Reg) (u : Nibble) : Statement (.skipEqReg x y u) := family_nibbles 0x5#4 x y u
theorem loadImm (x : Reg) (kk : Byte) : Statement (.loadImm x kk) := family_byte 0x6#4 x kk
theorem addImm (x : Reg) (kk : Byte) : Statement (.addImm x kk) := family_byte 0x7#4 x kk
theorem loadReg (x y : Reg) : Statement (.loadReg x y) := selector_nibbles 0x8#4 x y 0x0#4
theorem orReg (x y : Reg) : Statement (.orReg x y) := selector_nibbles 0x8#4 x y 0x1#4
theorem andReg (x y : Reg) : Statement (.andReg x y) := selector_nibbles 0x8#4 x y 0x2#4
theorem xorReg (x y : Reg) : Statement (.xorReg x y) := selector_nibbles 0x8#4 x y 0x3#4
theorem addReg (x y : Reg) : Statement (.addReg x y) := selector_nibbles 0x8#4 x y 0x4#4
theorem subReg (x y : Reg) : Statement (.subReg x y) := selector_nibbles 0x8#4 x y 0x5#4
theorem shiftRight (x y : Reg) : Statement (.shiftRight x y) := selector_nibbles 0x8#4 x y 0x6#4
theorem subnReg (x y : Reg) : Statement (.subnReg x y) := selector_nibbles 0x8#4 x y 0x7#4
theorem shiftLeft (x y : Reg) : Statement (.shiftLeft x y) := selector_nibbles 0x8#4 x y 0xE#4
theorem skipNeReg (x y : Reg) (u : Nibble) : Statement (.skipNeReg x y u) := family_nibbles 0x9#4 x y u
theorem loadIndexImm (nnn : Addr) : Statement (.loadIndexImm nnn) := family_addr 0xA#4 nnn
theorem jumpOffset (nnn : Addr) : Statement (.jumpOffset nnn) := family_addr 0xB#4 nnn
theorem random (x : Reg) (kk : Byte) : Statement (.random x kk) := family_byte 0xC#4 x kk
theorem drawSprite (x y : Reg) (n : Nibble) : Statement (.drawSprite x y n) := family_nibbles 0xD#4 x y n
theorem skipKeyPressed (x : Reg) : Statement (.skipKeyPressed x) := selector_byte 0xE#4 x 0x9E#8
theorem skipKeyNotPressed (x : Reg) : Statement (.skipKeyNotPressed x) := selector_byte 0xE#4 x 0xA1#8
theorem loadFromDelay (x : Reg) : Statement (.loadFromDelay x) := selector_byte 0xF#4 x 0x07#8
theorem waitKey (x : Reg) : Statement (.waitKey x) := selector_byte 0xF#4 x 0x0A#8
theorem setDelay (x : Reg) : Statement (.setDelay x) := selector_byte 0xF#4 x 0x15#8
theorem setSound (x : Reg) : Statement (.setSound x) := selector_byte 0xF#4 x 0x18#8
theorem addIndex (x : Reg) : Statement (.addIndex x) := selector_byte 0xF#4 x 0x1E#8
theorem loadSpriteAddr (x : Reg) : Statement (.loadSpriteAddr x) := selector_byte 0xF#4 x 0x29#8
theorem storeBcd (x : Reg) : Statement (.storeBcd x) := selector_byte 0xF#4 x 0x33#8
theorem storeRegs (x : Reg) : Statement (.storeRegs x) := selector_byte 0xF#4 x 0x55#8
theorem loadRegs (x : Reg) : Statement (.loadRegs x) := selector_byte 0xF#4 x 0x65#8

end Sys2Proof.Laws.RowMatch
end

