-- ==== Sys2Proof/Laws/Step.lean ====
section
/-! SUPPORT. What a handler and a step can do, said once. -/

namespace Sys2Proof.Machine

/-- Every handler answers a next state: a fault entry of its own, or a state with the same fault record, font ROM
and inputs. -/
theorem exec_cases (i : Instr) (s : State) :
    (∃ c, exec i s = .next (s.raise c i)) ∨
    ∃ t, exec i s = .next t ∧ t.fault = s.fault ∧ t.mem.rom = s.mem.rom ∧ t.keys = s.keys ∧ t.rnd = s.rnd ∧
      t.inputs = s.inputs ∧ t.inputIndex = s.inputIndex := by
  have guard : ∀ (check : Option Fault) (effect : State), exec i s = s.guarded check i effect →
      effect.fault = s.fault → effect.mem.rom = s.mem.rom →
      effect.keys = s.keys → effect.rnd = s.rnd → effect.inputs = s.inputs → effect.inputIndex = s.inputIndex →
      (∃ c, exec i s = .next (s.raise c i)) ∨
      ∃ t, exec i s = .next t ∧ t.fault = s.fault ∧ t.mem.rom = s.mem.rom ∧ t.keys = s.keys ∧ t.rnd = s.rnd ∧
        t.inputs = s.inputs ∧ t.inputIndex = s.inputIndex := by
    intro check effect he h1 h2 h3 h4 h5 h6
    cases check with
    | some c => exact .inl ⟨c, he⟩
    | none => exact .inr ⟨effect, he, h1, h2, h3, h4, h5, h6⟩
  have skip : ∀ b : Bool, (s.skipIf b).fault = s.fault ∧ (s.skipIf b).mem.rom = s.mem.rom ∧
      (s.skipIf b).keys = s.keys ∧ (s.skipIf b).rnd = s.rnd ∧ (s.skipIf b).inputs = s.inputs ∧
      (s.skipIf b).inputIndex = s.inputIndex := by
    intro b; simp [skipIf_eq]
  cases i with
  | ret u =>
    rcases pop_cases s with ⟨h, -⟩ | ⟨hpos, h⟩
    · exact .inl ⟨.stackUnderflow, by simp [exec, execRet, h]⟩
    · have he : exec (.ret u) s = .next { s with sp := ⟨s.sp.val - 1, by omega⟩, pc := s.stack[s.sp.val - 1] } := by
        simp only [exec, execRet, h]
      exact .inr ⟨_, he, rfl, rfl, rfl, rfl, rfl, rfl⟩
  | call nnn =>
    rcases push_cases s s.pc with ⟨h, -⟩ | ⟨hlt, h⟩
    · exact .inl ⟨.stackOverflow, by simp [exec, execCall, h]⟩
    · have he : exec (.call nnn) s = .next
          { s with stack := s.stack.set s.sp.val s.pc hlt, sp := ⟨s.sp.val + 1, by omega⟩, pc := zextAddr nnn } := by
        simp only [exec, execCall, h]
      exact .inr ⟨_, he, rfl, rfl, rfl, rfl, rfl, rfl⟩
  | waitKey x =>
    refine .inr ?_
    cases h : s.lowestKey with
    | some k =>
      have he : exec (.waitKey x) s = .next (s.setV x (BitVec.ofNat 8 k)) := by simp only [exec, execWaitKey, h]
      exact ⟨_, he, rfl, rfl, rfl, rfl, rfl, rfl⟩
    | none =>
      have he : exec (.waitKey x) s = .next { s with pc := s.pc - 2 } := by simp only [exec, execWaitKey, h]
      exact ⟨_, he, rfl, rfl, rfl, rfl, rfl, rfl⟩
  | skipEqImm x kk => exact .inr ⟨_, rfl, skip _⟩
  | skipNeImm x kk => exact .inr ⟨_, rfl, skip _⟩
  | skipEqReg x y u => exact .inr ⟨_, rfl, skip _⟩
  | skipNeReg x y u => exact .inr ⟨_, rfl, skip _⟩
  | skipKeyPressed x =>
    obtain ⟨h1, h2, h3, h4, h5, h6⟩ := skip (s.keyDown (s.getV x).toNat)
    exact guard _ _ rfl h1 h2 h3 h4 h5 h6
  | skipKeyNotPressed x =>
    obtain ⟨h1, h2, h3, h4, h5, h6⟩ := skip (!s.keyDown (s.getV x).toNat)
    exact guard _ _ rfl h1 h2 h3 h4 h5 h6
  | drawSprite x y n => exact guard _ _ rfl rfl rfl rfl rfl rfl rfl
  | storeBcd x => exact guard _ _ rfl rfl (writeBytes_rom _ _ _) rfl rfl rfl rfl
  | storeRegs x => exact guard _ _ rfl rfl (writeBytes_rom _ _ _) rfl rfl rfl rfl
  | loadRegs x => exact guard _ _ rfl (by simp) (by simp) (by simp) (by simp) (by simp) (by simp)
  | _ => exact .inr ⟨_, rfl, rfl, rfl, rfl, rfl, rfl, rfl⟩

/-- The address check of a fetch (R91). -/
theorem fetch_none (s : State) : s.fetch = none ↔ 0xFFE < s.pc.toNat := by
  unfold State.fetch
  split <;> simp <;> omega

theorem fetch_some (s : State) (h : s.pc.toNat ≤ 0xFFE) :
    s.fetch = some (wordOfBytes (s.mem.read s.pc.toNat) (s.mem.read (s.pc.toNat + 1))) := by
  simp [State.fetch, h]

/-! ## The four things a step can be (R90, R96) -/

theorem step_of_faulted (s : State) (h : s.fault ≠ none) : step s = .next s := by
  simp [step, cycle, Option.isSome_iff_ne_none, h]

theorem step_of_fetch_none (s : State) (hr : s.fault = none) (h : s.fetch = none) :
    step s = .next (s.takeFault .fetchOutOfRange s.pc 0) := by
  simp [step, cycle, hr, h]

theorem step_of_unknown (s : State) (op : Word) (hr : s.fault = none) (hf : s.fetch = some op)
    (hd : decode op = none) : step s = .next (s.takeFault .unknownOpcode s.pc op) := by
  simp [step, cycle, hr, hf, runWord, hd]

theorem step_of_decoded (s : State) (op : Word) (i : Instr) (t : State) (hr : s.fault = none)
    (hf : s.fetch = some op) (hd : decode op = some i) (he : exec i s.advance = .next t) :
    step s = .next t.finish := by
  simp [step, cycle, hr, hf, runWord, hd, he]

theorem step_of_completed (s : State) (op : Word) (i : Instr) (t : State) (hr : s.Running) (hf : s.fetch = some op)
    (hd : decode op = some i) (he : exec i s.advance = .next t) (ht : t.Running) :
    step s = .next t.tick.supplyInputs := by
  rw [step_of_decoded s op i t hr hf hd he, finish_of_running t ht]

/-- Everything a step can do: nothing, a fault of the fetch, of the decode or of the handler, or a completed handler
and the end of the step. -/
theorem step_cases (s : State) :
    (s.fault ≠ none ∧ step s = .next s) ∨
    (s.fault = none ∧ 0xFFE < s.pc.toNat ∧ step s = .next (s.takeFault .fetchOutOfRange s.pc 0)) ∨
    (s.fault = none ∧ s.pc.toNat ≤ 0xFFE ∧
      decode (s.mem.read s.pc.toNat ++ s.mem.read (s.pc.toNat + 1)) = none ∧
      step s = .next (s.takeFault .unknownOpcode s.pc (s.mem.read s.pc.toNat ++ s.mem.read (s.pc.toNat + 1)))) ∨
    (∃ i c, s.fault = none ∧ s.pc.toNat ≤ 0xFFE ∧
      decode (s.mem.read s.pc.toNat ++ s.mem.read (s.pc.toNat + 1)) = some i ∧
      exec i s.advance = .next (s.advance.raise c i) ∧
      step s = .next { s with fault := some ⟨c, s.pc, encode i⟩ }) ∨
    (∃ i t, s.fault = none ∧ s.pc.toNat ≤ 0xFFE ∧
      decode (s.mem.read s.pc.toNat ++ s.mem.read (s.pc.toNat + 1)) = some i ∧
      exec i s.advance = .next t ∧ t.fault = none ∧ t.mem.rom = s.mem.rom ∧ t.keys = s.keys ∧ t.rnd = s.rnd ∧
      t.inputs = s.inputs ∧ t.inputIndex = s.inputIndex ∧ step s = .next t.tick.supplyInputs) := by
  by_cases hr : s.fault = none
  swap
  · exact .inl ⟨hr, step_of_faulted s hr⟩
  by_cases hpc : s.pc.toNat ≤ 0xFFE
  swap
  · exact .inr (.inl ⟨hr, by omega, step_of_fetch_none s hr ((fetch_none s).mpr (by omega))⟩)
  cases hd : decode (s.mem.read s.pc.toNat ++ s.mem.read (s.pc.toNat + 1)) with
  | none => exact .inr (.inr (.inl ⟨hr, hpc, rfl, step_of_unknown s _ hr (fetch_some s hpc) hd⟩))
  | some i =>
    rcases exec_cases i s.advance with ⟨c, hc⟩ | ⟨t, ht, h1, h2, h3, h4, h5, h6⟩
    · refine .inr (.inr (.inr (.inl ⟨i, c, hr, hpc, rfl, hc, ?_⟩)))
      rw [step_of_decoded s _ i _ hr (fetch_some s hpc) hd hc, finish_of_fault _ rfl, advance_raise]
    · refine .inr (.inr (.inr (.inr ⟨i, t, hr, hpc, rfl, ht, h1.trans hr, h2, h3, h4, h5, h6, ?_⟩)))
      exact step_of_completed s _ i t hr (fetch_some s hpc) hd ht (h1.trans hr)

end Sys2Proof.Machine
end

