-- ==== Sys2Proof/Tests/Slice0.lean ====
section
/-! SUPPORT. The model's own tests: the smoke test of WellFormed, the decoding of every constructor, at most two steps
of every instruction, and a witness for the hypotheses of every statement. The words are written out from the
patterns of opcode_table.json (R75), and the expected results are those of 95_test_vectors.md, whose vector is named
with each test. -/

namespace Sys2Proof.Tests
open Sys2Proof Sys2Proof.Machine

/-! ## Small states -/

/-- The state of an answer; a state no test expects where there is none. -/
def stateOf : Host.Outcome State Fault Refusal → State
  | .next t => t
  | .fault _ => { State.reset with pc := 0xDEAD }
  | .refused _ => { State.reset with pc := 0xDEAD }

/-- The state after one step. -/
def after (s : State) : State := stateOf (step s)

/-- The start state of the vectors. -/
def start : State := State.reset

/-- Registers set before a test. -/
def regs (s : State) (l : List (Reg × Byte)) : State := l.foldl (fun t p => t.setV p.1 p.2) s

/-- Bytes stored before a test. -/
def bytes (s : State) (a : Nat) (vs : List Byte) : State := { s with mem := s.mem.writeBytes a vs }

/-- The word under test at `pc`. -/
def at_ (s : State) (w : Nat) : State := s.withFetchWord 16 w

/-! ## WellFormed: one ill-formed term for each check -/

theorem test_illformed_clearDisplay : (Instr.clearDisplay 1).wellFormed = false := by decide
theorem test_illformed_ret : (Instr.ret 3).wellFormed = false := by decide
theorem test_illformed_skipEqReg : (Instr.skipEqReg 1 2 0xF).wellFormed = false := by decide
theorem test_illformed_skipNeReg : (Instr.skipNeReg 1 2 1).wellFormed = false := by decide
theorem test_illformed_shiftRight : (Instr.shiftRight 1 2).wellFormed = false := by decide
theorem test_illformed_shiftLeft : (Instr.shiftLeft 1 2).wellFormed = false := by decide
theorem test_canonical_is_wellformed : (Instr.shiftLeft 1 2).canonical.wellFormed = true := by decide

/-! ## Decoding: a word for every constructor (vectors 2.1; the words not there follow the pattern of R75) -/

theorem test_decode_clearDisplay : decodeTableWord 16 0x01E0 = some (.clearDisplay 1) := by decide
theorem test_decode_ret : decodeTableWord 16 0x03EE = some (.ret 3) := by decide
theorem test_decode_jump : decodeTableWord 16 0x1FFF = some (.jump 0xFFF) := by decide
theorem test_decode_call : decodeTableWord 16 0x2ABC = some (.call 0xABC) := by decide
theorem test_decode_skipEqImm : decodeTableWord 16 0x3FFF = some (.skipEqImm 15 0xFF) := by decide
theorem test_decode_skipNeImm : decodeTableWord 16 0x4000 = some (.skipNeImm 0 0) := by decide
theorem test_decode_skipEqReg : decodeTableWord 16 0x512F = some (.skipEqReg 1 2 15) := by decide
theorem test_decode_loadImm : decodeTableWord 16 0x6A42 = some (.loadImm 10 0x42) := by decide
theorem test_decode_addImm : decodeTableWord 16 0x7001 = some (.addImm 0 1) := by decide
theorem test_decode_loadReg : decodeTableWord 16 0x8120 = some (.loadReg 1 2) := by decide
theorem test_decode_orReg : decodeTableWord 16 0x8121 = some (.orReg 1 2) := by decide
theorem test_decode_andReg : decodeTableWord 16 0x8122 = some (.andReg 1 2) := by decide
theorem test_decode_xorReg : decodeTableWord 16 0x8123 = some (.xorReg 1 2) := by decide
theorem test_decode_addReg : decodeTableWord 16 0x8124 = some (.addReg 1 2) := by decide
theorem test_decode_subReg : decodeTableWord 16 0x8125 = some (.subReg 1 2) := by decide
theorem test_decode_shiftRight : decodeTableWord 16 0x8126 = some (.shiftRight 1 2) := by decide
theorem test_decode_subnReg : decodeTableWord 16 0x8127 = some (.subnReg 1 2) := by decide
theorem test_decode_shiftLeft : decodeTableWord 16 0x812E = some (.shiftLeft 1 2) := by decide
theorem test_decode_skipNeReg : decodeTableWord 16 0x912F = some (.skipNeReg 1 2 15) := by decide
theorem test_decode_loadIndexImm : decodeTableWord 16 0xAFFF = some (.loadIndexImm 0xFFF) := by decide
theorem test_decode_jumpOffset : decodeTableWord 16 0xB123 = some (.jumpOffset 0x123) := by decide
theorem test_decode_random : decodeTableWord 16 0xC0FF = some (.random 0 0xFF) := by decide
theorem test_decode_drawSprite : decodeTableWord 16 0xD125 = some (.drawSprite 1 2 5) := by decide
theorem test_decode_skipKeyPressed : decodeTableWord 16 0xEF9E = some (.skipKeyPressed 15) := by decide
theorem test_decode_skipKeyNotPressed : decodeTableWord 16 0xE0A1 = some (.skipKeyNotPressed 0) := by decide
theorem test_decode_loadFromDelay : decodeTableWord 16 0xF307 = some (.loadFromDelay 3) := by decide
theorem test_decode_waitKey : decodeTableWord 16 0xF50A = some (.waitKey 5) := by decide
theorem test_decode_setDelay : decodeTableWord 16 0xF315 = some (.setDelay 3) := by decide
theorem test_decode_setSound : decodeTableWord 16 0xF318 = some (.setSound 3) := by decide
theorem test_decode_addIndex : decodeTableWord 16 0xF21E = some (.addIndex 2) := by decide
theorem test_decode_loadSpriteAddr : decodeTableWord 16 0xF029 = some (.loadSpriteAddr 0) := by decide
theorem test_decode_storeBcd : decodeTableWord 16 0xF133 = some (.storeBcd 1) := by decide
theorem test_decode_storeRegs : decodeTableWord 16 0xFF55 = some (.storeRegs 15) := by decide
theorem test_decode_loadRegs : decodeTableWord 16 0xF265 = some (.loadRegs 2) := by decide

/-- S9: the first byte is the high byte. -/
theorem test_decode_bigEndian : decodeBytes [0x12, 0x34, 0x56] = .ok (.jump 0x234, [0x56]) := by decide
theorem test_decode_truncated : decodeBytes [0x12] = .error .truncated := by decide
theorem test_decode_unknown_family0 : [0x0000, 0x00E1, 0x00EF, 0x0123, 0x0200].map decode = List.replicate 5 none := by
  decide
theorem test_decode_unknown_family8 : [0x8128, 0x812D, 0x812F].map decode = List.replicate 3 none := by decide
theorem test_decode_unknown_familyE : [0xE000, 0xE09F, 0xE0A0, 0xE1FF].map decode = List.replicate 4 none := by decide
theorem test_decode_unknown_familyF : [0xF000, 0xF01F, 0xF030, 0xF075, 0xFFFF].map decode = List.replicate 5 none := by
  decide
/-- R75's own column "mnemonic and syntax". -/
theorem test_asm : (Instr.drawSprite 1 2 5).asm = "DRW V1, V2, 0x5" := by decide
/-- R75's match words are the canonical words with zero operands. -/
theorem test_rows_are_encodings :
    ([.clearDisplay 0, .skipEqReg 0 0 0, .shiftLeft 0 0, .skipKeyNotPressed 0, .loadRegs 0] : List Instr).map encode
      = [0x00E0, 0x5000, 0x800E, 0xE0A1, 0xF065] := by decide

/-! ## The step (vectors 2.2) -/

/-- CY4, second step. -/
theorem test_fetch_above_0xFFE :
    after { start with pc := 0x1000 } = { start with pc := 0x1000, fault := some ⟨.fetchOutOfRange, 0x1000, 0⟩ } := by
  decide
/-- CY6. -/
theorem test_odd_pc_parks : (after (at_ { start with pc := 0x201 } 0x1201)).pc = 0x201 := by decide
/-- CY7: no tick, no advance. -/
theorem test_unknown_opcode : after { start with DT := 5, ST := 5 }
    = { start with DT := 5, ST := 5, fault := some ⟨.unknownOpcode, 0x200, 0⟩ } := by decide
/-- CY10: the rewound Wait for key still ticks. -/
theorem test_wait_ticks : (after (at_ { start with DT := 2 } 0xF00A)).DT = 1 := by decide
/-- RS5: an image of one byte. -/
theorem test_launch_one_byte : (after (stateOf (start.launch [0x60]))).pc = 0x202 := by decide
/-- P7, steps 3 and 4: the fetch sees the store. -/
theorem test_fetch_sees_store :
    (after (after (bytes (at_ (regs { start with I := 0x202 } [(0, 0x12)]) 0xF055) 0x203 [0x06]))).pc = 0x206 := by
  decide

/-! ## One step of every instruction -/

/-- DS1. -/
theorem test_clearDisplay :
    (after (at_ { start with fb := (start.fb.toggle 0 0).toggle 31 63 } 0x00E0)).fb = FrameBuffer.allOff := by decide
/-- F8. -/
theorem test_ret : (after (at_ { start with sp := 2, stack := (start.stack.set 0 0x300).set 1 0x400 } 0x07EE)).pc = 0x400 := by
  decide
/-- F7. -/
theorem test_ret_empty : after (at_ start 0x00EE) = { at_ start 0x00EE with fault := some ⟨.stackUnderflow, 0x200, 0x00EE⟩ } := by
  decide
/-- F1. -/
theorem test_jump : (after (at_ start 0x1ABC)).pc = 0xABC := by decide
/-- F3. -/
theorem test_call : (after (at_ { start with sp := 15 } 0x2ABC)).stack = start.stack.set 15 0x202 := by decide
/-- F4. -/
theorem test_call_full : after (at_ { start with sp := 16 } 0x2ABC)
    = { at_ { start with sp := 16 } 0x2ABC with fault := some ⟨.stackOverflow, 0x200, 0x2ABC⟩ } := by decide
/-- F9. -/
theorem test_skipEqImm : (after (at_ (regs start [(3, 0x2A)]) 0x332A)).pc = 0x204 := by decide
/-- F10. -/
theorem test_skipEqImm_not : (after (at_ (regs start [(3, 0x2B)]) 0x332A)).pc = 0x202 := by decide
/-- F11. -/
theorem test_skipNeImm_not : (after (at_ (regs start [(3, 0x2A)]) 0x432A)).pc = 0x202 := by decide
/-- F12. -/
theorem test_skipNeImm : (after (at_ (regs start [(3, 0x2A)]) 0x4300)).pc = 0x204 := by decide
/-- F14. -/
theorem test_skipEqReg : (after (at_ (regs start [(1, 7), (2, 7)]) 0x5121)).pc = 0x204 := by decide
/-- F15. -/
theorem test_skipEqReg_not : (after (at_ (regs start [(1, 7), (2, 8)]) 0x5120)).pc = 0x202 := by decide
/-- A1. -/
theorem test_loadImm : (after (at_ start 0x6A42)).getV 10 = 0x42 := by decide
/-- A2. -/
theorem test_addImm : (after (at_ (regs start [(0, 0xFF), (15, 0x55)]) 0x7002)).V = (regs start [(0, 1), (15, 0x55)]).V := by
  decide
/-- A3. -/
theorem test_addImm_VF : (after (at_ (regs start [(15, 0xFF)]) 0x7F01)).getV 15 = 0 := by decide
/-- A4. -/
theorem test_loadReg : (after (at_ (regs start [(2, 9)]) 0x8120)).V = (regs start [(1, 9), (2, 9)]).V := by decide
/-- A5. -/
theorem test_orReg : (after (at_ (regs start [(1, 0xF0), (2, 0x0F), (15, 0x55)]) 0x8121)).V
    = (regs start [(1, 0xFF), (2, 0x0F), (15, 0x55)]).V := by decide
/-- A5b. -/
theorem test_andReg : (after (at_ (regs start [(1, 0xF3), (2, 0x3F), (15, 0x55)]) 0x8122)).V
    = (regs start [(1, 0x33), (2, 0x3F), (15, 0x55)]).V := by decide
/-- A5c. -/
theorem test_xorReg : (after (at_ (regs start [(1, 0xFF), (2, 0x0F), (15, 0x55)]) 0x8123)).V
    = (regs start [(1, 0xF0), (2, 0x0F), (15, 0x55)]).V := by decide
/-- A6. -/
theorem test_addReg : (after (at_ (regs start [(0, 0xFF), (1, 1)]) 0x8014)).V = (regs start [(0, 0), (1, 1), (15, 1)]).V := by
  decide
/-- A7: the sum overwrites the carry. -/
theorem test_addReg_VF : (after (at_ (regs start [(15, 0xF0), (1, 0x20)]) 0x8F14)).getV 15 = 0x10 := by decide
/-- A10c: equal operands give 0. -/
theorem test_subReg_equal : (after (at_ (regs start [(1, 5), (2, 5), (15, 1)]) 0x8125)).V = (regs start [(1, 0), (2, 5)]).V := by
  decide
/-- A12: the subtrahend is the new flag. -/
theorem test_subReg_VF : (after (at_ (regs start [(1, 9), (15, 3)]) 0x81F5)).V = (regs start [(1, 8), (15, 1)]).V := by decide
/-- A17d: `y` is ignored. -/
theorem test_shiftRight : (after (at_ (regs start [(4, 5), (5, 0xAA)]) 0x8456)).V
    = (regs start [(4, 2), (5, 0xAA), (15, 1)]).V := by decide
/-- A18. -/
theorem test_shiftRight_VF : (after (at_ (regs start [(15, 0xFF)]) 0x8F06)).getV 15 = 0 := by decide
/-- A14. -/
theorem test_subnReg : (after (at_ (regs start [(1, 3), (2, 5)]) 0x8127)).V = (regs start [(1, 2), (2, 5), (15, 1)]).V := by
  decide
/-- A16. -/
theorem test_subnReg_VF : (after (at_ (regs start [(1, 3), (15, 9)]) 0x81F7)).V = (regs start [(1, 0xFE), (15, 1)]).V := by
  decide
/-- A19d: `y` is ignored. -/
theorem test_shiftLeft : (after (at_ (regs start [(0, 0x80), (7, 0x33)]) 0x807E)).V = (regs start [(7, 0x33), (15, 1)]).V := by
  decide
/-- A20. -/
theorem test_shiftLeft_VF : (after (at_ (regs start [(15, 0x80)]) 0x8F0E)).getV 15 = 2 := by decide
/-- F17. -/
theorem test_skipNeReg : (after (at_ (regs start [(1, 7), (2, 8)]) 0x9120)).pc = 0x204 := by decide
/-- F18. -/
theorem test_skipNeReg_not : (after (at_ (regs start [(1, 7), (2, 7)]) 0x912F)).pc = 0x202 := by decide
/-- M1. -/
theorem test_loadIndexImm : (after (at_ start 0xAFFF)).I = 0xFFF := by decide
/-- F21. -/
theorem test_jumpOffset : (after (at_ (regs start [(0, 0xFF)]) 0xBFFF)).pc = 0x10FE := by decide
/-- F22: the offset is V[0], never V[3]. -/
theorem test_jumpOffset_V0 : (after (at_ (regs start [(3, 4)]) 0xB300)).pc = 0x300 := by decide
/-- A21. -/
theorem test_random : (after (at_ { start with rnd := 0xB7 } 0xC30F)).getV 3 = 0x07 := by decide
/-- DS8: the clipped bit does not land on column 0, and the flag stays 0. -/
theorem test_drawSprite_clips :
    (let t := after (at_ (bytes (regs { start with I := 0x300, fb := start.fb.toggle 0 0 } [(0, 63)]) 0x300 [0xC0]) 0xD011)
     (t.fb, t.getV 15)) = ((start.fb.toggle 0 63).toggle 0 0, 0) := by decide
/-- DS11: the coordinate in V[15] is read before the flag is cleared. -/
theorem test_drawSprite_VF :
    (let t := after (at_ (bytes (regs { start with I := 0x300 } [(15, 5), (1, 2)]) 0x300 [0x80]) 0xDF11)
     (t.fb, t.getV 15)) = (start.fb.toggle 2 5, 0) := by decide
/-- K1. -/
theorem test_skipKeyPressed : (after (at_ { regs start [(2, 7)] with keys := 0x0080 } 0xE29E)).pc = 0x204 := by decide
/-- K3c: the index is not masked. -/
theorem test_skipKeyPressed_fault : (after (at_ { regs start [(2, 0x17)] with keys := 0x0080 } 0xE29E)).fault
    = some ⟨.keyIndexOutOfRange, 0x200, 0xE29E⟩ := by decide
/-- K2. -/
theorem test_skipKeyNotPressed : (after (at_ (regs start [(2, 7)]) 0xE2A1)).pc = 0x204 := by decide
/-- K2b. -/
theorem test_skipKeyNotPressed_not : (after (at_ { regs start [(2, 7)] with keys := 0x0080 } 0xE2A1)).pc = 0x202 := by decide
/-- K4: the value copied is the one before the tick. -/
theorem test_loadFromDelay : (let t := after (at_ { start with DT := 5 } 0xF307); (t.getV 3, t.DT)) = (5, 4) := by decide
/-- K5. -/
theorem test_waitKey_none : (let t := after (at_ (regs start [(5, 0x33)]) 0xF50A); (t.pc, t.getV 5)) = (0x200, 0x33) := by decide
/-- K5b: the lowest pressed key. -/
theorem test_waitKey_lowest : (let t := after (at_ { start with keys := 0x0480 } 0xF50A); (t.pc, t.getV 5)) = (0x202, 7) := by
  decide
/-- K6. -/
theorem test_setDelay : (let t := after (at_ { regs start [(3, 3)] with ST := 4 } 0xF315); (t.DT, t.ST)) = (2, 3) := by decide
/-- K7. -/
theorem test_setSound : (let t := after (at_ { regs start [(3, 1)] with DT := 4 } 0xF318); (t.ST, t.DT)) = (0, 3) := by decide
/-- M2b: past 0xFFF there is no fault and no flag. -/
theorem test_addIndex : (let t := after (at_ (regs { start with I := 0xFFF } [(2, 1), (15, 0x55)]) 0xF21E); (t.I, t.getV 15))
    = (0x1000, 0x55) := by decide
/-- M2c. -/
theorem test_addIndex_wraps : (after (at_ (regs { start with I := 0xFFFF } [(2, 1)]) 0xF21E)).I = 0 := by decide
/-- M3c, default font base. -/
theorem test_loadSpriteAddr : (after (at_ (regs start [(0, 0xFF)]) 0xF029)).I = 0x54B := by decide
/-- M4e: the last three bytes of the memory. -/
theorem test_storeBcd : (after (at_ (regs { start with I := 0xFFD } [(1, 0x7B)]) 0xF133)).mem.readBytes 0xFFC 4 = [0, 1, 2, 3] := by
  decide
/-- M5: nothing is written, not even below the font. -/
theorem test_storeBcd_font : after (at_ (regs { start with I := 0x4E } [(1, 0x7B)]) 0xF133)
    = { at_ (regs { start with I := 0x4E } [(1, 0x7B)]) 0xF133 with fault := some ⟨.fontWrite, 0x200, 0xF133⟩ } := by decide
/-- S4: four registers, not three or five. -/
theorem test_storeRegs : (after (at_ (regs { start with I := 0x400 } [(0, 0x11), (1, 0x22), (2, 0x33), (3, 0x44), (4, 0x55)])
    0xF355)).mem.readBytes 0x3FF 6 = [0, 0x11, 0x22, 0x33, 0x44, 0] := by decide
/-- M6d. -/
theorem test_storeRegs_fault : (after (at_ { start with I := 0x1000 } 0xF055)).fault
    = some ⟨.dataAddressOutOfRange, 0x200, 0xF055⟩ := by decide
/-- M7. -/
theorem test_loadRegs : (after (at_ (bytes (regs { start with I := 0x400 } [(3, 0x99)]) 0x400 [0xAA, 0xBB, 0xCC]) 0xF265)).V
    = (regs start [(0, 0xAA), (1, 0xBB), (2, 0xCC), (3, 0x99)]).V := by decide
/-- M7c: no register changes. -/
theorem test_loadRegs_fault : (let t := after (at_ (regs (bytes { start with I := 0xFFF } 0xFFF [0x5A]) [(0, 0x11)]) 0xF165)
    (t.V, t.fault)) = ((regs start [(0, 0x11)]).V, some ⟨.dataAddressOutOfRange, 0x200, 0xF165⟩) := by decide

/-! ## Witnesses: for every statement with hypotheses, concrete states and operands that meet them all; for a
statement in clauses, one for each clause, at a boundary value of its range. -/

/-- The state a handler ends in. -/
def execTo (i : Instr) (s : State) : State := stateOf (exec i s)

theorem witness_EncodeOfDecode : decode 0x812E = some (.shiftLeft 1 2) := by decide

theorem witness_DecodeIsTheOpcodeMap :
    ∃ r ∈ opcodeMap, ∃ q ∈ opcodeMap, 0x03EE#16 &&& r.mask = r.bits ∧ 0x03EE#16 &&& q.mask = q.bits := by decide

theorem witness_IgnoredBitsRunIdentically : start.Running ∧ (execTo (.skipEqReg 1 2 15) start).Running ∧
    exec (.skipEqReg 1 2 15) start = .next (execTo (.skipEqReg 1 2 15) start) := ⟨rfl, rfl, rfl⟩

/-- A handler that completes, at the last fetchable address. -/
theorem witness_StepRunsDecodedInstruction :
    let s := at_ { start with pc := 0xFFE } 0x6A42
    let t := execTo (.loadImm 10 0x42) { s with pc := s.pc + 2 }
    s.Running ∧ s.pc.toNat ≤ 0xFFE ∧
      decode (s.mem.read s.pc.toNat ++ s.mem.read (s.pc.toNat + 1)) = some (.loadImm 10 0x42) ∧
      exec (.loadImm 10 0x42) { s with pc := s.pc + 2 } = .next t ∧ t.Running :=
  ⟨rfl, by decide, by decide, rfl, rfl⟩

/-- A handler that faults. -/
theorem witness_StepRunsDecodedInstruction_fault :
    let s := at_ start 0x00EE
    let t := execTo (.ret 0) { s with pc := s.pc + 2 }
    s.Running ∧ s.pc.toNat ≤ 0xFFE ∧
      decode (s.mem.read s.pc.toNat ++ s.mem.read (s.pc.toNat + 1)) = some (.ret 0) ∧
      exec (.ret 0) { s with pc := s.pc + 2 } = .next t ∧ ¬t.Running :=
  ⟨rfl, by decide, by decide, rfl, by unfold State.Running; decide⟩

theorem witness_FetchOutOfRangeFaults : { start with pc := 0xFFF }.Running ∧ 0xFFE < { start with pc := 0xFFF }.pc.toNat :=
  ⟨rfl, by decide⟩

theorem witness_UnknownOpcodeFaults :
    let s := { start with pc := 0xFFE }
    s.Running ∧ s.pc.toNat ≤ 0xFFE ∧ decode (s.mem.read s.pc.toNat ++ s.mem.read (s.pc.toNat + 1)) = none :=
  ⟨rfl, by decide, by decide⟩

theorem witness_FaultedIsFinal : ¬{ start with fault := some ⟨.stackUnderflow, 0x200, 0x00EE⟩ }.Running := by
  unfold State.Running; decide

/-- A fault of the fetch, and one of a fetched word. -/
theorem witness_FaultsArePrecise :
    ({ start with pc := 0xFFF }.Running ∧ step { start with pc := 0xFFF } = .next (after { start with pc := 0xFFF }) ∧
      (after { start with pc := 0xFFF }).fault = some ⟨.fetchOutOfRange, 0xFFF, 0⟩) ∧
    ((at_ start 0x00EE).Running ∧ step (at_ start 0x00EE) = .next (after (at_ start 0x00EE)) ∧
      (after (at_ start 0x00EE)).fault = some ⟨.stackUnderflow, 0x200, 0x00EE⟩) :=
  ⟨⟨rfl, rfl, rfl⟩, rfl, rfl, by decide⟩

/-- A step that completes, and one that does not. -/
theorem witness_StepCompletesExactlyWhen :
    ((at_ start 0x1200).Running ∧ step (at_ start 0x1200) = .next (after (at_ start 0x1200)) ∧
      (after (at_ start 0x1200)).Running) ∧
    ((at_ start 0x00EE).Running ∧ step (at_ start 0x00EE) = .next (after (at_ start 0x00EE)) ∧
      ¬(after (at_ start 0x00EE)).Running) :=
  ⟨⟨rfl, rfl, rfl⟩, rfl, rfl, by unfold State.Running; decide⟩

/-- Timers at 0 and at 255, and an instruction that sets neither. -/
theorem witness_TimersTickEveryStep :
    let s := at_ { start with DT := 0, ST := 0xFF } 0x1200
    s.Running ∧ step s = .next (after s) ∧ (after s).Running ∧
      decode (s.mem.read s.pc.toNat ++ s.mem.read (s.pc.toNat + 1)) = some (.jump 0x200) ∧
      (∀ x, Instr.jump 0x200 ≠ .setDelay x) ∧ ∀ x, Instr.jump 0x200 ≠ .setSound x :=
  ⟨rfl, rfl, rfl, by decide, by simp, by simp⟩

theorem witness_InputsMatterOnlyWhereRead :
    exec (.loadImm 1 2) start = .next (execTo (.loadImm 1 2) start) ∧
      (∀ x kk, Instr.loadImm 1 2 ≠ .random x kk) ∧
      ∀ x, Instr.loadImm 1 2 ≠ .skipKeyPressed x ∧ Instr.loadImm 1 2 ≠ .skipKeyNotPressed x ∧ Instr.loadImm 1 2 ≠ .waitKey x :=
  ⟨rfl, by simp, by simp⟩

/-- Parked at the last fetchable address. -/
theorem witness_ParkedStaysParked : (at_ { start with pc := 0xFFE, DT := 3 } 0x1FFE).Parked := ⟨rfl, by decide⟩

theorem witness_NextFetchSeesStore :
    let s := at_ { start with pc := 0xFEE, I := 0xFF0 } 0xFF55
    s.Running ∧ s.mem.wf ∧ s.fetch = some (0xF#4 ++ (15 : Reg) ++ 0x55#8) ∧ 1 ≤ (15 : Reg).toNat ∧
      s.I.toNat = s.pc.toNat + 2 ∧ s.inRange (15 : Reg).toNat ∧ ¬s.hitsFont (15 : Reg).toNat :=
  ⟨rfl, by decide, by decide, by decide, by decide, by unfold State.inRange; decide, by unfold State.hitsFont; decide⟩

/-- A handler that completes and is named by no clause, and one that faults. -/
theorem witness_WritersOfEachPieceOfState :
    (exec (.addImm 14 1) start = .next (execTo (.addImm 14 1) start) ∧ start.Completes (.addImm 14 1) ∧
      movesPc (.addImm 14 1) = false ∧ (15 : Reg) ∉ writtenRegs (.addImm 14 1) ∧
      (∀ nnn u, Instr.addImm 14 1 ≠ .call nnn ∧ Instr.addImm 14 1 ≠ .ret u) ∧
      (∀ nnn x, Instr.addImm 14 1 ≠ .loadIndexImm nnn ∧ Instr.addImm 14 1 ≠ .addIndex x ∧
        Instr.addImm 14 1 ≠ .loadSpriteAddr x) ∧
      (∀ x, Instr.addImm 14 1 ≠ .setDelay x ∧ Instr.addImm 14 1 ≠ .setSound x) ∧
      (∀ u x y n, Instr.addImm 14 1 ≠ .clearDisplay u ∧ Instr.addImm 14 1 ≠ .drawSprite x y n) ∧
      ∀ x, Instr.addImm 14 1 ≠ .storeBcd x ∧ Instr.addImm 14 1 ≠ .storeRegs x) ∧
    (exec (.ret 0) start = .next (execTo (.ret 0) start) ∧ ¬start.Completes (.ret 0)) :=
  ⟨⟨rfl, trivial, rfl, by decide, by simp, by simp, by simp, by simp, by simp⟩, rfl,
    by unfold State.Completes; decide⟩

theorem witness_inv : (at_ { start with sp := 1, stack := start.stack.set 0 0x1000 } 0x2FFF).Inv where
  memory := by decide
  stackBound := by decide
  pcBound := by decide
  font := by decide

theorem witness_StepKeepsInvariants :
    let s := at_ { start with sp := 1, stack := start.stack.set 0 0x1000 } 0x2FFF
    s.Inv ∧ step s = .next (after s) := ⟨witness_inv, rfl⟩

/-- A step that stores right below the font table. -/
theorem witness_FontTableIsReadOnly :
    let s := at_ { start with I := 0x4D } 0xF033
    s.mem.wf ∧ step s = .next (after s) ∧ 79 < 80 := ⟨by decide, rfl, by decide⟩

/-- Below the font table, above it, and in it. -/
theorem witness_ResetState : let base := start.mem.rom.base.val
    ¬(base ≤ 0x4F ∧ 0x4F < base + 80) ∧ ¬(base ≤ 0xA0 ∧ 0xA0 < base + 80) ∧ 79 < 80 := by decide

/-- Images of 3584 and of 3585 bytes. -/
theorem witness_LoadCopiesImage : start.mem.wf ∧ ∀ b : Byte, (List.replicate 3584 b).length ≤ 3584 ∧
    3584 < (List.replicate 3585 b).length :=
  ⟨by decide, fun _ => ⟨Nat.le_of_eq List.length_replicate, Nat.lt_of_lt_of_eq (by decide) List.length_replicate.symm⟩⟩

/-- The longest image, less its first two bytes. -/
theorem witness_LaunchRunsImage : ∀ b : Byte, (List.replicate 3582 b).length ≤ 3582 :=
  fun _ => Nat.le_of_eq List.length_replicate

/-- Stacks with one entry, full, and empty. -/
theorem witness_ReturnPops : 0 < { start with sp := 1 }.sp.val ∧ 0 < { start with sp := 16 }.sp.val ∧
    { start with sp := 0 }.sp.val = 0 := by decide

/-- Stacks with no entry, with room for one, and full. -/
theorem witness_CallPushes : { start with sp := 0 }.sp.val < 16 ∧ { start with sp := 15 }.sp.val < 16 ∧
    { start with sp := 16 }.sp.val = 16 := by decide

theorem witness_ReturnUndoesCall : { start with sp := 15 }.sp.val < 16 ∧
    exec (.call 0xFFF) { start with sp := 15 } = .next (execTo (.call 0xFFF) { start with sp := 15 }) := ⟨by decide, rfl⟩

theorem witness_ImmediateSkips : (regs start [(15, 0xFF)]).getV 15 = 0xFF ∧ (regs start [(15, 0xFF)]).getV 15 ≠ 0xFE := by
  decide

theorem witness_RegisterSkips : (regs start [(1, 7)]).getV 2 = (regs start [(1, 7)]).getV 3 ∧
    (regs start [(1, 7)]).getV 1 ≠ (regs start [(1, 7)]).getV 2 := by decide

/-- The flag is another register than the result, and the same one. -/
theorem witness_flag_clauses : (14 : Reg) ≠ 15 ∧ (15 : Reg) = 15 := by decide

/-- The flag of a subtraction, for a larger, an equal and a smaller minuend. -/
theorem witness_SubRegisterNotBorrow : let s := regs start [(1, 5), (2, 5), (3, 6)]
    ((1 : Byte) = if (s.getV 3).toNat > (s.getV 1).toNat then 1 else 0) ∧
    ((0 : Byte) = if (s.getV 1).toNat > (s.getV 2).toNat then 1 else 0) ∧
    ((0 : Byte) = if (s.getV 1).toNat > (s.getV 3).toNat then 1 else 0) := by decide

/-- Three bytes at the end of the memory, right below and right above the font table; out of range; on its first and
its last byte. -/
theorem witness_StoreBcdDigits : start.mem.wf ∧
    ({ start with I := 0xFFD }.inRange 2 ∧ ¬{ start with I := 0xFFD }.hitsFont 2) ∧
    ({ start with I := 0x4D }.inRange 2 ∧ ¬{ start with I := 0x4D }.hitsFont 2) ∧
    ({ start with I := 0xA0 }.inRange 2 ∧ ¬{ start with I := 0xA0 }.hitsFont 2) ∧
    ¬{ start with I := 0xFFE }.inRange 2 ∧
    ({ start with I := 0x4E }.inRange 2 ∧ { start with I := 0x4E }.hitsFont 2) ∧
    ({ start with I := 0x9F }.inRange 2 ∧ { start with I := 0x9F }.hitsFont 2) := by
  unfold State.inRange State.hitsFont; decide

/-- One byte and sixteen bytes, at the same boundaries. -/
theorem witness_StoreRegistersRange : start.mem.wf ∧
    ({ start with I := 0xFFF }.inRange (0 : Reg).toNat ∧ ¬{ start with I := 0xFFF }.hitsFont (0 : Reg).toNat) ∧
    ({ start with I := 0xFF0 }.inRange (15 : Reg).toNat ∧ ¬{ start with I := 0xFF0 }.hitsFont (15 : Reg).toNat) ∧
    ({ start with I := 0x40 }.inRange (15 : Reg).toNat ∧ ¬{ start with I := 0x40 }.hitsFont (15 : Reg).toNat) ∧
    ¬{ start with I := 0xFF1 }.inRange (15 : Reg).toNat ∧ ¬{ start with I := 0x1000 }.inRange (0 : Reg).toNat ∧
    ({ start with I := 0x41 }.inRange (15 : Reg).toNat ∧ { start with I := 0x41 }.hitsFont (15 : Reg).toNat) ∧
    ({ start with I := 0x9F }.inRange (0 : Reg).toNat ∧ { start with I := 0x9F }.hitsFont (0 : Reg).toNat) := by
  unfold State.inRange State.hitsFont; decide

/-- A range on the font table, one at the end of the memory, and one past it; a register in the range and one above. -/
theorem witness_LoadRegistersRange : { start with I := 0x50 }.inRange (4 : Reg).toNat ∧
    { start with I := 0xFF0 }.inRange (15 : Reg).toNat ∧ ¬{ start with I := 0xFFF }.inRange (1 : Reg).toNat ∧
    (4 : Reg).toNat ≤ (4 : Reg).toNat ∧ (4 : Reg).toNat < (5 : Reg).toNat := by unfold State.inRange; decide

theorem witness_LoadRestoresStoredRegisters :
    let s := regs { start with I := 0xFF0 } [(3, 0x33)]
    let t := execTo (.storeRegs 15) s
    let u := regs t [(3, 0), (15, 9)]
    s.mem.wf ∧ s.Completes (.storeRegs 15) ∧ exec (.storeRegs 15) s = .next t ∧ u.mem = t.mem ∧ u.I = s.I :=
  ⟨by decide, by unfold State.Completes State.inRange State.hitsFont; decide, rfl, by decide, by decide⟩

theorem witness_AddressChecksExclude : 15 ≤ 15 ∧ ¬{ start with I := 0xFF1 }.inRange 15 := by
  unfold State.inRange; decide

/-- No row with `I` past the memory; one row at the last byte; fifteen rows ending there; out of range. -/
theorem witness_DrawXorsSprite :
    ((0 : Nibble) = 0 ∧ ¬{ start with I := 0x1000 }.inRange 0) ∧
    { start with I := 0xFFF }.inRange ((1 : Nibble).toNat - 1) ∧ { start with I := 0xFF1 }.inRange ((15 : Nibble).toNat - 1) ∧
    ((2 : Nibble) ≠ 0 ∧ ¬{ start with I := 0xFFF }.inRange ((2 : Nibble).toNat - 1)) := by
  unfold State.inRange; decide

/-- A sprite bit on the last pixel of the screen that collides, and one that does not. -/
theorem witness_DrawXorsSprite_flag :
    let s := bytes (regs { start with I := 0x300 } [(0, 63), (1, 31)]) 0x300 [0x80]
    (∃ r c, { s with fb := s.fb.toggle 31 63 }.spriteBit 0 1 1 r c = true ∧
      { s with fb := s.fb.toggle 31 63 }.fb.pixel r c = true) ∧
    (s.spriteBit 0 1 1 31 63 = true ∧ ∀ r c, s.spriteBit 0 1 1 r c = true → s.fb.pixel r c = false) :=
  ⟨⟨31, 63, by decide, by decide⟩, by decide, fun r c _ => pixel_allOff r c⟩

/-- A sprite drawn with V[15] as a coordinate that the flag leaves alone. -/
theorem witness_DrawTwiceRestores :
    let s := bytes (regs { start with I := 0x300, fb := start.fb.toggle 31 63 } [(1, 30)]) 0x300 [0xFF, 0xFF, 0xFF]
    let t := execTo (.drawSprite 15 1 3) s
    s.Completes (.drawSprite 15 1 3) ∧ exec (.drawSprite 15 1 3) s = .next t ∧
      (t.getV 15).toNat % 64 = (s.getV 15).toNat % 64 ∧ (t.getV 1).toNat % 32 = (s.getV 1).toNat % 32 :=
  ⟨by unfold State.Completes State.inRange; decide, rfl, by decide, by decide⟩

/-- A clear framebuffer, and a draw with V[15] as a coordinate that the flag changes. -/
theorem witness_DrawTwiceRestores_clear :
    let s := bytes (regs { start with I := 0x300 } [(15, 63), (1, 30)]) 0x300 [0xFF, 0xFF, 0xFF]
    let t := execTo (.drawSprite 15 1 3) s
    s.Completes (.drawSprite 15 1 3) ∧ exec (.drawSprite 15 1 3) s = .next t ∧
      (t.getV 15).toNat % 64 ≠ (s.getV 15).toNat % 64 ∧ ∀ r c, s.fb.pixel r c = false :=
  ⟨by unfold State.Completes State.inRange; decide, rfl, by decide, fun r c => pixel_allOff r c⟩

theorem witness_DrawChangesVisibleBits :
    let s := bytes (regs { start with I := 0xFFD } [(0, 63), (1, 30)]) 0xFFD [0xFF, 0xFF, 0xFF]
    s.Completes (.drawSprite 0 1 3) ∧ exec (.drawSprite 0 1 3) s = .next (execTo (.drawSprite 0 1 3) s) :=
  ⟨by unfold State.Completes State.inRange; decide, rfl⟩

/-- Key 15 pressed, and not; and the first index that is no key. -/
theorem witness_KeySkips :
    ((regs start [(2, 15)]).getV 2).toNat ≤ 15 ∧
    { regs start [(2, 15)] with keys := 0x8000 }.keys.getLsbD ((regs start [(2, 15)]).getV 2).toNat = true ∧
    { regs start [(2, 15)] with keys := 0x7FFF }.keys.getLsbD ((regs start [(2, 15)]).getV 2).toNat = false ∧
    15 < ((regs start [(2, 16)]).getV 2).toNat := by decide

/-- Only key 15 pressed; keys 0 and 7; none. -/
theorem witness_WaitForKeyPolls :
    (15 ≤ 15 ∧ { start with keys := 0x8000 }.keys.getLsbD 15 = true ∧
      ∀ j < 15, { start with keys := 0x8000 }.keys.getLsbD j = false) ∧
    (0 ≤ 15 ∧ { start with keys := 0x0081 }.keys.getLsbD 0 = true ∧
      ∀ j < 0, { start with keys := 0x0081 }.keys.getLsbD j = false) ∧
    start.keys = 0 := by decide

theorem witness_WaitForKeyStepRewinds : let s := at_ { start with DT := 1 } 0xF50A
    s.Running ∧ s.fetch = some (0xF#4 ++ (5 : Reg) ++ 0x0A#8) ∧ s.keys = 0 := ⟨rfl, by decide, by decide⟩

/-- Each of the three clauses. -/
theorem witness_TimerStepsTick :
    ((at_ start 0xF315).Running ∧ (at_ start 0xF315).fetch = some (0xF#4 ++ (3 : Reg) ++ 0x15#8)) ∧
    ((at_ start 0xF318).Running ∧ (at_ start 0xF318).fetch = some (0xF#4 ++ (3 : Reg) ++ 0x18#8)) ∧
    ((at_ start 0xF307).Running ∧ (at_ start 0xF307).fetch = some (0xF#4 ++ (3 : Reg) ++ 0x07#8)) :=
  ⟨⟨rfl, by decide⟩, ⟨rfl, by decide⟩, rfl, by decide⟩

end Sys2Proof.Tests
end

/-! ## What a handler may write (R20) -/

namespace Sys2Proof.Machine

/-- What the completed handler of `i` may have written in `s` to end in `t`: R20's column "written by", field by
field, with the fault record untouched (R93). -/
structure WritesOnly (i : Instr) (s t : State) : Prop where
  fault : t.fault = s.fault
  pc : movesPc i = false → t.pc = s.pc
  regs : ∀ r : Reg, r ∉ writtenRegs i → t.getV r = s.getV r
  sp : (∀ nnn u, i ≠ .call nnn ∧ i ≠ .ret u) → t.sp = s.sp
  stack : (∀ nnn, i ≠ .call nnn) → t.stack = s.stack
  I : (∀ nnn x, i ≠ .loadIndexImm nnn ∧ i ≠ .addIndex x ∧ i ≠ .loadSpriteAddr x) → t.I = s.I
  DT : (∀ x, i ≠ .setDelay x) → t.DT = s.DT
  ST : (∀ x, i ≠ .setSound x) → t.ST = s.ST
  fb : (∀ u x y n, i ≠ .clearDisplay u ∧ i ≠ .drawSprite x y n) → t.fb = s.fb
  mem : (∀ x, i ≠ .storeBcd x ∧ i ≠ .storeRegs x) → t.mem = s.mem
  rom : t.mem.rom = s.mem.rom
  keys : t.keys = s.keys
  rnd : t.rnd = s.rnd

namespace WritesOnly

theorem refl (i : Instr) (s : State) : WritesOnly i s s :=
  ⟨rfl, fun _ => rfl, fun _ _ => rfl, fun _ => rfl, fun _ => rfl, fun _ => rfl, fun _ => rfl, fun _ => rfl,
    fun _ => rfl, fun _ => rfl, rfl, rfl, rfl⟩

/-- A write to a register of `writtenRegs` may be added. -/
theorem setV {i : Instr} {s t : State} {x : Reg} (hw : WritesOnly i s t) (hx : x ∈ writtenRegs i) (v : Byte) :
    WritesOnly i s (t.setV x v) :=
  { hw with
    regs := fun r hr => by
      have hne : x ≠ r := fun e => hr (e ▸ hx)
      rw [getV_setV_other t x r v hne, hw.regs r hr] }

/-- Writes to consecutive registers of `writtenRegs` may be added. -/
theorem setRegs {i : Instr} {s t : State} (hw : WritesOnly i s t) (j : Nat) (vs : List Byte)
    (hx : ∀ k < vs.length, BitVec.ofNat 4 (j + k) ∈ writtenRegs i) : WritesOnly i s (t.setRegs j vs) := by
  induction vs generalizing t j with
  | nil => exact hw
  | cons v vs ih =>
    refine ih (hw.setV (hx 0 (by simp)) v) (j + 1) fun k hk => ?_
    rw [Nat.add_assoc, Nat.add_comm 1]
    exact hx (k + 1) (by simpa using hk)

/-- An instruction that transfers control may write `pc`. -/
theorem setPc {i : Instr} {s t : State} (hw : WritesOnly i s t) (hi : movesPc i = true) (p : Word) :
    WritesOnly i s { t with pc := p } :=
  { hw with pc := fun hn => by simp [hi] at hn }

theorem skipIf {i : Instr} {s t : State} (hw : WritesOnly i s t) (hi : movesPc i = true) (b : Bool) :
    WritesOnly i s (t.skipIf b) := by
  rw [skipIf_eq]
  exact hw.setPc hi _

end WritesOnly

/-- What R93 and R95 allow the handler of `i` to do in `s`: complete, when its condition of R170 holds, writing only
what R20 names; or end in its fault entry. -/
def CompletesOrFaults (i : Instr) (s : State) : Prop :=
  (s.Completes i ∧ ∃ t, exec i s = .next t ∧ WritesOnly i s t) ∨
  (¬s.Completes i ∧ ∃ c, exec i s = .next (s.faulted c i))

/-- A handler whose condition of R170 holds, which is `True` for most, and what it answers. -/
theorem completesOrFaults_of_next {i : Instr} {s t : State} (hc : s.Completes i) (he : exec i s = .next t)
    (hw : WritesOnly i s t) : CompletesOrFaults i s := .inl ⟨hc, t, he, hw⟩

/-- A guarded handler completes exactly when its check finds no fault. -/
theorem completesOrFaults_of_guarded {i : Instr} {s effect : State} {check : Option Fault}
    (he : exec i s = s.guarded check i effect) (hcheck : check = none ↔ s.Completes i)
    (hw : WritesOnly i s effect) : CompletesOrFaults i s := by
  cases check with
  | none => exact .inl ⟨hcheck.mp rfl, effect, he, hw⟩
  | some c => exact .inr ⟨fun hc => by simpa using hcheck.mpr hc, c, he⟩

theorem keyFault_eq_none_iff (v : Byte) : keyFault v = none ↔ v.toNat ≤ 15 := by
  by_cases h : v.toNat ≤ 15
  · simp [keyFault_none v h, h]
  · simp [keyFault_some v (by omega), h]

open WritesOnly in
/-- Every handler completes exactly under its condition of R170, and writes then only what R20 names. -/
theorem exec_completesOrFaults (i : Instr) (s : State) : CompletesOrFaults i s := by
  cases i with
  | ret u =>
    rcases pop_cases s with ⟨h, h0⟩ | ⟨hpos, h⟩
    · exact .inr ⟨by simp [State.Completes, h0], .stackUnderflow, by simp only [exec, execRet, h, raise_eq_faulted]⟩
    · have he : exec (.ret u) s = .next { s with sp := ⟨s.sp.val - 1, by omega⟩, pc := s.stack[s.sp.val - 1] } := by
        simp only [exec, execRet, h]
      exact completesOrFaults_of_next hpos he
        { (refl _ s).setPc rfl _ with sp := fun hn => absurd rfl (hn 0 u).2 }
  | call nnn =>
    rcases push_cases s s.pc with ⟨h, h16⟩ | ⟨hlt, h⟩
    · exact .inr ⟨by simp [State.Completes, h16], .stackOverflow, by simp only [exec, execCall, h, raise_eq_faulted]⟩
    · have he : exec (.call nnn) s = .next
          { s with stack := s.stack.set s.sp.val s.pc hlt, sp := ⟨s.sp.val + 1, by omega⟩, pc := zextAddr nnn } := by
        simp only [exec, execCall, h]
      exact completesOrFaults_of_next hlt he
        { (refl _ s).setPc rfl _ with
          sp := fun hn => absurd rfl (hn nnn 0).1
          stack := fun hn => absurd rfl (hn nnn) }
  | jump nnn => exact completesOrFaults_of_next trivial rfl ((refl _ s).setPc rfl _)
  | jumpOffset nnn => exact completesOrFaults_of_next trivial rfl ((refl _ s).setPc rfl _)
  | skipEqImm x kk => exact completesOrFaults_of_next trivial rfl ((refl _ s).skipIf rfl _)
  | skipNeImm x kk => exact completesOrFaults_of_next trivial rfl ((refl _ s).skipIf rfl _)
  | skipEqReg x y u => exact completesOrFaults_of_next trivial rfl ((refl _ s).skipIf rfl _)
  | skipNeReg x y u => exact completesOrFaults_of_next trivial rfl ((refl _ s).skipIf rfl _)
  | skipKeyPressed x =>
    exact completesOrFaults_of_guarded rfl (keyFault_eq_none_iff _) ((refl _ s).skipIf rfl _)
  | skipKeyNotPressed x =>
    exact completesOrFaults_of_guarded rfl (keyFault_eq_none_iff _) ((refl _ s).skipIf rfl _)
  | waitKey x =>
    cases h : s.lowestKey with
    | some k =>
      have he : exec (.waitKey x) s = .next (s.setV x (BitVec.ofNat 8 k)) := by simp only [exec, execWaitKey, h]
      exact completesOrFaults_of_next trivial he ((refl _ s).setV (by simp [writtenRegs]) _)
    | none =>
      have he : exec (.waitKey x) s = .next { s with pc := s.pc - 2 } := by simp only [exec, execWaitKey, h]
      exact completesOrFaults_of_next trivial he ((refl _ s).setPc rfl _)
  | loadImm x kk | addImm x kk | loadReg x y | orReg x y | andReg x y | xorReg x y | random x kk | loadFromDelay x =>
    exact completesOrFaults_of_next trivial rfl ((refl _ s).setV (by simp [writtenRegs]) _)
  | addReg x y | subReg x y | subnReg x y | shiftRight x y | shiftLeft x y =>
    exact completesOrFaults_of_next trivial rfl
      (((refl _ s).setV (x := VF) (by simp [writtenRegs]) _).setV (x := x) (by simp [writtenRegs]) _)
  | drawSprite x y n =>
    exact completesOrFaults_of_guarded rfl (drawFault_iff s n)
      { (refl _ s).setV (x := VF) (by simp [writtenRegs]) _ with fb := fun hn => absurd rfl (hn 0 x y n).2 }
  | loadRegs x =>
    exact completesOrFaults_of_guarded rfl (rangeFault_none s x.toNat)
      ((refl _ s).setRegs 0 _ fun k hk => by
        rw [readBytes_length] at hk
        simpa [writtenRegs] using ⟨k, Nat.le_of_lt_succ hk, rfl⟩)
  | storeBcd x =>
    exact completesOrFaults_of_guarded rfl (storeFault_iff s 2)
      { refl _ s with mem := fun hn => absurd rfl (hn x).1, rom := writeBytes_rom _ _ _ }
  | storeRegs x =>
    exact completesOrFaults_of_guarded rfl (storeFault_iff s x.toNat)
      { refl _ s with mem := fun hn => absurd rfl (hn x).2, rom := writeBytes_rom _ _ _ }
  | clearDisplay u =>
    exact completesOrFaults_of_next trivial rfl { refl _ s with fb := fun hn => absurd rfl (hn u 0 0 0).1 }
  | loadIndexImm nnn =>
    exact completesOrFaults_of_next trivial rfl { refl _ s with I := fun hn => absurd rfl (hn nnn 0).1 }
  | addIndex x =>
    exact completesOrFaults_of_next trivial rfl { refl _ s with I := fun hn => absurd rfl (hn 0 x).2.1 }
  | loadSpriteAddr x =>
    exact completesOrFaults_of_next trivial rfl { refl _ s with I := fun hn => absurd rfl (hn 0 x).2.2 }
  | setDelay x => exact completesOrFaults_of_next trivial rfl { refl _ s with DT := fun hn => absurd rfl (hn x) }
  | setSound x => exact completesOrFaults_of_next trivial rfl { refl _ s with ST := fun hn => absurd rfl (hn x) }

/-- The two ways a handler ends: completed, with R20's writes only, or in its fault entry. -/
theorem exec_next_cases {i : Instr} {s t : State} (h : exec i s = .next t) :
    (s.Completes i ∧ WritesOnly i s t) ∨ (¬s.Completes i ∧ ∃ c, t = s.faulted c i) := by
  rcases exec_completesOrFaults i s with ⟨hc, u, hu, hw⟩ | ⟨hc, c, hu⟩
  · obtain rfl := Host.Outcome.next.inj (hu.symm.trans h)
    exact .inl ⟨hc, hw⟩
  · exact .inr ⟨hc, c, Host.Outcome.next.inj (h.symm.trans hu)⟩

end Sys2Proof.Machine

namespace Sys2Proof.Proofs
open Sys2Proof.Machine

/-- Settles O19: a completed handler by `WritesOnly`, a fault entry because it writes `pc` and the record alone. -/
theorem writersOfEachPieceOfState : Obligations.WritersOfEachPieceOfState := by
  intro i s t h
  rcases exec_next_cases h with ⟨hc, hw⟩ | ⟨hc, c, rfl⟩
  · exact ⟨.inl ⟨hc, hw.fault, hw.pc⟩, hw.regs, hw.sp, hw.stack, hw.I, hw.DT, hw.ST, hw.fb, hw.mem,
      hw.rom, hw.keys, hw.rnd⟩
  · exact ⟨.inr ⟨hc, c, rfl⟩, fun _ _ => rfl, fun _ => rfl, fun _ => rfl, fun _ => rfl, fun _ => rfl, fun _ => rfl,
      fun _ => rfl, fun _ => rfl, rfl, rfl, rfl⟩

end Sys2Proof.Proofs

/-! ## The state after reset (R33) -/

namespace Sys2Proof.Machine

/-- A font table address that no listed byte covers reads as FONT_TABLE (R51). -/
theorem unlisted_font (m : Memory) (k : Nat) (h : k < 80) : m.unlisted (m.rom.base.val + k) = m.rom.glyphs[k] := by
  simp [Memory.unlisted, h]

theorem unlisted_outside_font (m : Memory) (a : Nat) (h : ¬(m.rom.base.val ≤ a ∧ a < m.rom.base.val + 80)) :
    m.unlisted a = 0 := by
  simp only [Memory.unlisted, h, dite_false]

/-- Every byte of the reset memory is unlisted. -/
theorem resetWith_read (rom : FontRom) (a : Nat) :
    (State.resetWith rom).mem.read a = (State.resetWith rom).mem.unlisted a := rfl

theorem resetWith_read_font (rom : FontRom) (k : Nat) (h : k < 80) :
    (State.resetWith rom).mem.read (rom.base.val + k) = rom.glyphs[k] :=
  (resetWith_read rom _).trans (unlisted_font (State.resetWith rom).mem k h)

theorem resetWith_getV (rom : FontRom) (x : Reg) : (State.resetWith rom).getV x = 0 := by
  simp [State.getV, State.resetWith]

theorem resetWith_stack (rom : FontRom) (j : Nat) (h : j < 16) : (State.resetWith rom).stack[j] = 0 := by
  simp [State.resetWith]

end Sys2Proof.Machine

namespace Sys2Proof.Proofs
open Sys2Proof.Machine

/-- Settles O20: no stack entry is in use, and every byte of memory is unlisted. -/
theorem resetMeetsInvariants : Obligations.ResetMeetsInvariants := fun rom =>
  { memory := reset_memory_wf rom
    stackBound := fun j hj _ => by simp [resetWith_stack rom j hj]
    pcBound := by simp [State.resetWith]
    font := resetWith_read_font rom }

/-- Settles O23, row by row of R33's table. -/
theorem resetState : Obligations.ResetState := by
  refine ⟨⟨_, rfl⟩, fun rom => ⟨resetWith_getV rom, rfl, rfl, resetWith_stack rom, rfl, rfl, rfl, rfl, ?_, rfl,
    resetWith_read_font rom, ?_⟩⟩
  · exact pixel_allOff
  · intro a ha
    rw [resetWith_read]
    exact unlisted_outside_font (State.resetWith rom).mem a ha

end Sys2Proof.Proofs

/-! ## What a handler leaves in memory, on the stack and in `pc` (R36) -/

namespace Sys2Proof.Machine

/-- A store whose check finds no fault writes its bytes in the memory and clear of the font table, or nothing. -/
theorem guarded_store_mem {i : Instr} {s t : State} {last : Nat} {vs : List Byte} (hlen : vs.length = last + 1)
    (h : s.guarded (s.storeFault last) i { s with mem := s.mem.writeBytes (s.addr 0) vs } = .next t) :
    t.mem = s.mem ∨
    ∃ a vs, a + vs.length ≤ 4096 ∧ (∀ k < vs.length, s.mem.inFont (a + k) = false) ∧ t.mem = s.mem.writeBytes a vs := by
  rcases guarded_cases _ _ _ _ _ h with ⟨c, -, rfl⟩ | ⟨hcheck, rfl⟩
  · exact .inl rfl
  · obtain ⟨hrange, hfont⟩ := (storeFault_none s last).mp hcheck
    have ha : s.addr 0 = s.I.toNat := rfl
    exact .inr ⟨s.addr 0, vs, by omega, fun k hk => hfont k (by omega), rfl⟩

/-- Memory after a handler: as before, or with bytes stored in range and clear of the font table (R146). -/
theorem exec_mem_cases {i : Instr} {s t : State} (h : exec i s = .next t) :
    t.mem = s.mem ∨
    ∃ a vs, a + vs.length ≤ 4096 ∧ (∀ k < vs.length, s.mem.inFont (a + k) = false) ∧ t.mem = s.mem.writeBytes a vs := by
  rcases exec_next_cases h with ⟨-, hw⟩ | ⟨-, c, rfl⟩
  · cases i with
    | storeBcd x => exact guarded_store_mem rfl h
    | storeRegs x => exact guarded_store_mem (regsUpTo_length s x) h
    | _ => exact .inl (hw.mem (by simp))
  · exact .inl rfl

/-- A completed Call (R102). -/
theorem exec_call_next {nnn : Addr} {s t : State} (h : exec (.call nnn) s = .next t) (hc : s.Completes (.call nnn)) :
    ∃ hlt : s.sp.val < 16, t =
      { s with stack := s.stack.set s.sp.val s.pc hlt, sp := ⟨s.sp.val + 1, by omega⟩, pc := zextAddr nnn } := by
  rcases push_cases s s.pc with ⟨-, h16⟩ | ⟨hlt, hp⟩
  · exact absurd h16 hc.ne
  · simp only [exec, execCall, hp] at h
    exact ⟨hlt, (Host.Outcome.next.inj h).symm⟩

/-- A completed Return (R100). -/
theorem exec_ret_next {u : Nibble} {s t : State} (h : exec (.ret u) s = .next t) (hc : s.Completes (.ret u)) :
    ∃ hpos : 0 < s.sp.val, t = { s with sp := ⟨s.sp.val - 1, by omega⟩, pc := s.stack[s.sp.val - 1] } := by
  rcases pop_cases s with ⟨-, h0⟩ | ⟨hpos, hp⟩
  · exact absurd h0 (Nat.ne_of_gt hc)
  · simp only [exec, execRet, hp] at h
    exact ⟨hpos, (Host.Outcome.next.inj h).symm⟩

/-- The stack after a handler: no entry more in use and none changed, or `pc` pushed (R100, R102). -/
theorem exec_stack_cases {i : Instr} {s t : State} (h : exec i s = .next t) :
    (t.sp.val ≤ s.sp.val ∧ t.stack = s.stack) ∨
    ∃ hlt : s.sp.val < 16, t.sp.val = s.sp.val + 1 ∧ t.stack = s.stack.set s.sp.val s.pc hlt := by
  rcases exec_next_cases h with ⟨hc, hw⟩ | ⟨-, c, rfl⟩
  · cases i with
    | call nnn =>
      obtain ⟨hlt, rfl⟩ := exec_call_next h hc
      exact .inr ⟨hlt, rfl, rfl⟩
    | ret u =>
      obtain ⟨hpos, rfl⟩ := exec_ret_next h hc
      exact .inl ⟨Nat.sub_le _ _, rfl⟩
    | _ => exact .inl ⟨(congrArg Fin.val (hw.sp (by simp))).le, hw.stack (by simp)⟩
  · exact .inl ⟨le_rfl, rfl⟩

/-- Where a handler running in `s` may leave `pc` (R23): at the next instruction, skipping it, back at its own
address, at a jump's target, or at the entry on top of the stack. -/
inductive PcAfter (s : State) : Word → Prop
  | next : PcAfter s s.pc
  | skip : PcAfter s (s.pc + 2)
  | back : PcAfter s (s.pc - 2)
  | target (p : Word) (h : p.toNat ≤ 0x10FE) : PcAfter s p
  | popped (h : 0 < s.sp.val) : PcAfter s (s.stack[s.sp.val - 1])

theorem skipIf_pcAfter (s : State) (b : Bool) : PcAfter s (s.skipIf b).pc := by
  cases b with
  | false => exact .next
  | true => exact .skip

theorem guarded_skipIf_pcAfter {i : Instr} {s t : State} {check : Option Fault} {b : Bool}
    (h : s.guarded check i (s.skipIf b) = .next t) : PcAfter s t.pc := by
  rcases guarded_cases _ _ _ _ _ h with ⟨c, -, rfl⟩ | ⟨-, rfl⟩
  · exact .back
  · exact skipIf_pcAfter s b

theorem zextAddr_toNat_le (nnn : Addr) : (zextAddr nnn).toNat ≤ 0xFFF := by
  have := nnn.isLt
  simp only [zextAddr, BitVec.toNat_setWidth]
  omega

/-- The sum of R107 does not wrap: its bound is 0xFFF + 0xFF. -/
theorem jumpOffset_target_le (nnn : Addr) (v : Byte) : (zextAddr nnn + zextByte v).toNat ≤ 0x10FE := by
  have haddr := zextAddr_toNat_le nnn
  have hbyte : (zextByte v).toNat ≤ 0xFF := by
    have := v.isLt
    simp only [zextByte, BitVec.toNat_setWidth]
    omega
  rw [BitVec.toNat_add]
  omega

theorem exec_pcAfter {i : Instr} {s t : State} (h : exec i s = .next t) : PcAfter s t.pc := by
  rcases exec_next_cases h with ⟨hc, hw⟩ | ⟨-, c, rfl⟩
  · cases i with
    | jump nnn =>
      obtain rfl := Host.Outcome.next.inj h
      exact .target _ ((zextAddr_toNat_le nnn).trans (by decide))
    | jumpOffset nnn =>
      obtain rfl := Host.Outcome.next.inj h
      exact .target _ (jumpOffset_target_le nnn _)
    | call nnn =>
      obtain ⟨-, rfl⟩ := exec_call_next h hc
      exact .target _ ((zextAddr_toNat_le nnn).trans (by decide))
    | ret u =>
      obtain ⟨hpos, rfl⟩ := exec_ret_next h hc
      exact .popped hpos
    | waitKey x =>
      cases hk : s.lowestKey <;> simp only [exec, execWaitKey, hk] at h <;> obtain rfl := Host.Outcome.next.inj h
      · exact .back
      · exact .next
    | skipEqImm x kk | skipNeImm x kk | skipEqReg x y u | skipNeReg x y u =>
      obtain rfl := Host.Outcome.next.inj h
      exact skipIf_pcAfter s _
    | skipKeyPressed x | skipKeyNotPressed x => exact guarded_skipIf_pcAfter h
    | _ => exact hw.pc rfl ▸ .next
  · exact .back

/-! ## The invariants of R36, one by one -/

/-- Bytes stored clear of the font table leave it (R36 (d), R57). -/
theorem writeBytes_read_font (m : Memory) (a k : Nat) (vs : List Byte) (hm : m.wf) (ha : a + vs.length ≤ 4096)
    (hclear : ∀ j < vs.length, m.inFont (a + j) = false) (hk : k < 80) :
    (m.writeBytes a vs).read (m.rom.base.val + k) = m.read (m.rom.base.val + k) := by
  have hout : ¬(a ≤ m.rom.base.val + k ∧ m.rom.base.val + k < a + vs.length) := by
    rintro ⟨hlo, hhi⟩
    have hfree := hclear (m.rom.base.val + k - a) (by omega)
    have hin : m.inFont (a + (m.rom.base.val + k - a)) = true := (inFont_iff _ _).mpr ⟨by omega, by omega⟩
    exact absurd hin (by simp [hfree])
  rw [read_writeBytes m a _ vs hm ha, dif_neg hout]

theorem exec_mem_wf {i : Instr} {s t : State} (h : exec i s = .next t) (hm : s.mem.wf) : t.mem.wf := by
  rcases exec_mem_cases h with heq | ⟨a, vs, ha, -, heq⟩ <;> rw [heq]
  · exact hm
  · exact writeBytes_wf _ _ _ hm ha

theorem exec_mem_font {i : Instr} {s t : State} (h : exec i s = .next t) (hs : s.Inv) (k : Nat) (hk : k < 80) :
    t.mem.read (t.mem.rom.base.val + k) = t.mem.rom.glyphs[k] := by
  rcases exec_mem_cases h with heq | ⟨a, vs, ha, hclear, heq⟩ <;> rw [heq]
  · exact hs.font k hk
  · simp only [writeBytes_rom]
    rw [writeBytes_read_font s.mem a k vs hs.memory ha hclear hk, hs.font k hk]

/-- The only entry that comes into use is the `pc` a Call pushes, which the fetch bounds (R36 (b)). -/
theorem exec_stackBound {i : Instr} {s t : State} (h : exec i s = .next t) (hs : s.Inv) (hpc : s.pc.toNat ≤ 0x1000)
    (j : Nat) (hj : j < 16) (hused : j < t.sp.val) : (t.stack[j]).toNat ≤ 0x1000 := by
  rcases exec_stack_cases h with ⟨hsp, hst⟩ | ⟨hlt, hsp, hst⟩
  · simpa only [hst] using hs.stackBound j hj (by omega)
  · simp only [hst, Vector.getElem_set]
    split
    · exact hpc
    · exact hs.stackBound j hj (by omega)

/-- R36 (c): `pc` after the advance is at most 0x1000, and a popped entry too. -/
theorem PcAfter.toNat_le {s : State} {p : Word} (h : PcAfter s p) (hs : s.Inv) (hlo : 2 ≤ s.pc.toNat)
    (hhi : s.pc.toNat ≤ 0x1000) : p.toNat ≤ 0x10FE := by
  cases h with
  | next => omega
  | skip => rw [BitVec.toNat_add]; simp; omega
  | back => rw [BitVec.toNat_sub]; simp; omega
  | target _ hp => exact hp
  | popped hpos => exact (hs.stackBound (s.sp.val - 1) (by omega) (by omega)).trans (by decide)

/-- A handler keeps the invariants where a fetch may have left `pc` (R91, R92). -/
theorem exec_inv {i : Instr} {s t : State} (h : exec i s = .next t) (hs : s.Inv) (hlo : 2 ≤ s.pc.toNat)
    (hhi : s.pc.toNat ≤ 0x1000) : t.Inv where
  memory := exec_mem_wf h hs.memory
  stackBound := exec_stackBound h hs hhi
  pcBound := (exec_pcAfter h).toNat_le hs hlo hhi
  font := exec_mem_font h hs

/-- The invariants speak of memory, the stack and `pc` only. -/
theorem State.Inv.of_eq {s t : State} (hs : s.Inv) (hmem : t.mem = s.mem) (hsp : t.sp = s.sp)
    (hstack : t.stack = s.stack) (hpc : t.pc.toNat ≤ 0x10FE) : t.Inv where
  memory := hmem ▸ hs.memory
  stackBound := by simpa only [hsp, hstack] using hs.stackBound
  pcBound := hpc
  font := by simpa only [hmem] using hs.font

end Sys2Proof.Machine

namespace Sys2Proof.Proofs
open Sys2Proof.Machine

/-- Settles O21: a faulting step writes the record alone, and a completed one is its handler on the advanced `pc`, which
the fetch bounds, with the end of the step. -/
theorem stepKeepsInvariants : Obligations.StepKeepsInvariants := by
  intro s t hs h
  have answer : ∀ {u}, step s = .next u → u.Inv → t.Inv := fun hu hinv =>
    Host.Outcome.next.inj (hu.symm.trans h) ▸ hinv
  rcases step_cases s with ⟨-, hu⟩ | ⟨-, -, hu⟩ | ⟨-, -, -, hu⟩ | ⟨i, c, -, -, -, -, hu⟩ |
    ⟨i, u, -, hpc, -, he, -, -, -, -, -, -, hu⟩
  · exact answer hu hs
  · exact answer hu (hs.of_eq rfl rfl rfl hs.pcBound)
  · exact answer hu (hs.of_eq rfl rfl rfl hs.pcBound)
  · exact answer hu (hs.of_eq rfl rfl rfl hs.pcBound)
  · have hadv : s.advance.pc.toNat = s.pc.toNat + 2 := by
      rw [advance_pc, BitVec.toNat_add]
      simp
      omega
    have hs' : s.advance.Inv := hs.of_eq rfl rfl rfl (by omega)
    have hinv : u.Inv := exec_inv he hs' (by omega) (by omega)
    exact answer hu (hinv.of_eq rfl rfl rfl hinv.pcBound)

end Sys2Proof.Proofs

/-! ## Store registers, byte by byte (R144) -/

namespace Sys2Proof

/-- The row `Fx55` of R75. -/
theorem decode_storeRegs (x : Reg) : decode (0xF#4 ++ x ++ 0x55#8) = some (.storeRegs x) := by
  rw [decode_familyF _ (fieldFam_byte 0xF#4 x 0x55#8)]
  simp [decodeFamilyF]

end Sys2Proof

namespace Sys2Proof.Machine

@[simp] theorem regsUpTo_getElem (s : State) (x : Reg) (k : Nat) (h : k < (s.regsUpTo x).length) :
    (s.regsUpTo x)[k] = s.getV (BitVec.ofNat 4 k) := by
  simp [State.regsUpTo]

/-- In range and clear of the font table, Store registers has its effect. -/
theorem exec_storeRegs_completes {s : State} {x : Reg} (hr : s.inRange x.toNat) (hf : ¬s.hitsFont x.toNat) :
    exec (.storeRegs x) s = .next { s with mem := s.mem.writeBytes (s.addr 0) (s.regsUpTo x) } := by
  have hcheck : s.storeFault x.toNat = none := (storeFault_iff s x.toNat).mpr ⟨hr, hf⟩
  simp only [exec, execStoreRegs, State.guarded, hcheck]

/-- Byte `I + k` of a store of `V[0]` to `V[x]` holds `V[k]`. -/
theorem read_writeBytes_regsUpTo {s : State} {x : Reg} {k : Nat} (hm : s.mem.wf) (hr : s.inRange x.toNat)
    (hk : k ≤ x.toNat) :
    (s.mem.writeBytes (s.addr 0) (s.regsUpTo x)).read (s.I.toNat + k) = s.getV (BitVec.ofNat 4 k) := by
  have haddr : s.addr 0 = s.I.toNat := rfl
  have hlen := regsUpTo_length s x
  unfold State.inRange at hr
  rw [haddr, read_writeBytes _ _ _ _ hm (by omega), dif_pos (by omega)]
  simp

end Sys2Proof.Machine

/-! ## Memory across a step (R57, R63) -/

namespace Sys2Proof.Machine

/-- Memory after a step: as before, or with bytes stored in range and clear of the font table (R146). -/
theorem step_mem_cases {s t : State} (h : step s = .next t) :
    t.mem = s.mem ∨
    ∃ a vs, a + vs.length ≤ 4096 ∧ (∀ k < vs.length, s.mem.inFont (a + k) = false) ∧ t.mem = s.mem.writeBytes a vs := by
  have answer : ∀ {u}, step s = .next u → t = u := fun hu => Host.Outcome.next.inj (h.symm.trans hu)
  rcases step_cases s with ⟨-, hu⟩ | ⟨-, -, hu⟩ | ⟨-, -, -, hu⟩ | ⟨i, c, -, -, -, -, hu⟩ |
    ⟨i, u, -, -, -, he, -, -, -, -, -, -, hu⟩ <;> rw [answer hu]
  · exact .inl rfl
  · exact .inl rfl
  · exact .inl rfl
  · exact .inl rfl
  · exact exec_mem_cases (s := s.advance) (t := u) he

end Sys2Proof.Machine

namespace Sys2Proof.Proofs
open Sys2Proof.Machine

/-- Settles O22: what a step stores lies clear of the font table. -/
theorem fontTableIsReadOnly : Obligations.FontTableIsReadOnly := by
  intro s t k hm h hk
  rcases step_mem_cases h with heq | ⟨a, vs, ha, hclear, heq⟩ <;> rw [heq]
  · exact ⟨rfl, rfl⟩
  · exact ⟨writeBytes_rom _ _ _, writeBytes_read_font s.mem a k vs hm ha hclear hk⟩

/-- Settles O18: the step is Store registers on the advanced `pc`, which `I` names, so the next fetch reads the stored
`V[0]` and `V[1]`. -/
theorem nextFetchSeesStore : Obligations.NextFetchSeesStore := by
  intro s x hrun hm hfetch hx hI hr hf
  have hexec := exec_storeRegs_completes (s := s.advance) hr hf
  refine ⟨_, step_of_completed s _ _ _ hrun hfetch (decode_storeRegs x) hexec hrun, hrun, ?_⟩
  have hpc : (s.pc + 2).toNat = s.I.toNat := by
    have := s.I.isLt
    rw [BitVec.toNat_add, hI]
    simp
    omega
  have hread : ∀ k ≤ x.toNat,
      (s.mem.writeBytes (s.addr 0) (s.regsUpTo x)).read ((s.pc + 2).toNat + k) = s.getV (BitVec.ofNat 4 k) :=
    fun k hk => hpc ▸ read_writeBytes_regsUpTo hm hr hk
  have hhi : (s.pc + 2).toNat ≤ 0xFFE := by
    unfold State.inRange at hr
    omega
  rw [fetch_some _ hhi]
  exact congrArg some (congrArg₂ wordOfBytes (hread 0 (Nat.zero_le _)) (hread 1 hx))

end Sys2Proof.Proofs

/-! ## The decoder and the encoder (spec 30_encoding.md R70 to R78) -/

namespace Sys2Proof
open Sys2Proof.Laws

/-- The low byte of a word given nibble by nibble (R71). -/
@[simp] theorem fieldKK_nibbles (f x y n : Nibble) : fieldKK (f ++ x ++ y ++ n : Word) = y ++ n := by
  apply BitVec.eq_of_toNat_eq
  have := y.isLt; have := n.isLt
  simp only [fieldKK, BitVec.extractLsb'_toNat, append_toNat, Nat.shiftRight_eq_div_pow]
  omega

/-! ### A word from its family and its selector -/

section
variable {w : Word} {f n : Nibble} {kk : Byte}

theorem nibbles_eq_of_fields (hf : fieldFam w = f) (hn : fieldN w = n) : f ++ fieldX w ++ fieldY w ++ n = w := by
  rw [← hf, ← hn]; exact (word_eq_nibbles w).symm

theorem byte_eq_of_fields (hf : fieldFam w = f) (hk : fieldKK w = kk) : f ++ fieldX w ++ kk = w := by
  rw [← hf, ← hk]; exact (word_eq_byte w).symm

theorem addr_eq_of_field (hf : fieldFam w = f) : f ++ fieldNNN w = w := by
  rw [← hf]; exact (word_eq_addr w).symm

end

/-! ### Decode and encode are inverse (R71, R74, R75) -/

/-- Decoding keeps every field of an instruction, the ignored ones included. -/
theorem decode_encode (i : Instr) : decode (encode i) = some i := by
  cases i with
  | clearDisplay | ret => simp [encode, decode_family0, decodeFamily0]
  | jump => simp [encode, decode_family1]
  | call => simp [encode, decode_family2]
  | skipEqImm => simp [encode, decode_family3]
  | skipNeImm => simp [encode, decode_family4]
  | skipEqReg => simp [encode, decode_family5]
  | loadImm => simp [encode, decode_family6]
  | addImm => simp [encode, decode_family7]
  | loadReg | orReg | andReg | xorReg | addReg | subReg | shiftRight | subnReg | shiftLeft =>
    simp [encode, decode_family8, decodeFamily8]
  | skipNeReg => simp [encode, decode_family9]
  | loadIndexImm => simp [encode, decode_familyA]
  | jumpOffset => simp [encode, decode_familyB]
  | random => simp [encode, decode_familyC]
  | drawSprite => simp [encode, decode_familyD]
  | skipKeyPressed | skipKeyNotPressed => simp [encode, decode_familyE, decodeFamilyE]
  | loadFromDelay | waitKey | setDelay | setSound | addIndex | loadSpriteAddr | storeBcd | storeRegs | loadRegs =>
    simp [encode, decode_familyF, decodeFamilyF]

/-- The stored bytes of an instruction decode to it and leave the bytes after it (R54). -/
theorem decodeBytes_encodeBytes (i : Instr) (rest : List Byte) :
    decodeBytes (encodeBytes i ++ rest) = .ok (i, rest) := by
  simp [encodeBytes, decodeBytes, wordOfBytes_bytes, decode_encode]

section
variable {w : Word} {i : Instr}

theorem encode_of_decodeFamily0 (hf : fieldFam w = 0x0#4) (h : decodeFamily0 w = some i) : encode i = w := by
  unfold decodeFamily0 at h
  split_ifs at h <;> cases h <;> exact byte_eq_of_fields hf ‹_›

theorem encode_of_decodeFamily8 (hf : fieldFam w = 0x8#4) (h : decodeFamily8 w = some i) : encode i = w := by
  unfold decodeFamily8 at h
  split_ifs at h <;> cases h <;> exact nibbles_eq_of_fields hf ‹_›

theorem encode_of_decodeFamilyE (hf : fieldFam w = 0xE#4) (h : decodeFamilyE w = some i) : encode i = w := by
  unfold decodeFamilyE at h
  split_ifs at h <;> cases h <;> exact byte_eq_of_fields hf ‹_›

theorem encode_of_decodeFamilyF (hf : fieldFam w = 0xF#4) (h : decodeFamilyF w = some i) : encode i = w := by
  unfold decodeFamilyF at h
  split_ifs at h <;> cases h <;> exact byte_eq_of_fields hf ‹_›

/-- A family without a second level: the word decodes to the one instruction `j`, whose word it is. -/
theorem encode_of_decode_eq {j : Instr} (hj : decode w = some j) (h : decode w = some i) (hw : encode j = w) :
    encode i = w :=
  Option.some.inj (hj.symm.trans h) ▸ hw

/-- Encoding puts back every bit decoding read, family by family. -/
theorem encode_of_decode (h : decode w = some i) : encode i = w := by
  rcases nibble_cases (fieldFam w) with hf | hf | hf | hf | hf | hf | hf | hf | hf | hf | hf | hf | hf | hf | hf | hf
  · exact encode_of_decodeFamily0 hf (decode_family0 w hf ▸ h)
  · exact encode_of_decode_eq (decode_family1 w hf) h (addr_eq_of_field hf)
  · exact encode_of_decode_eq (decode_family2 w hf) h (addr_eq_of_field hf)
  · exact encode_of_decode_eq (decode_family3 w hf) h (byte_eq_of_fields hf rfl)
  · exact encode_of_decode_eq (decode_family4 w hf) h (byte_eq_of_fields hf rfl)
  · exact encode_of_decode_eq (decode_family5 w hf) h (nibbles_eq_of_fields hf rfl)
  · exact encode_of_decode_eq (decode_family6 w hf) h (byte_eq_of_fields hf rfl)
  · exact encode_of_decode_eq (decode_family7 w hf) h (byte_eq_of_fields hf rfl)
  · exact encode_of_decodeFamily8 hf (decode_family8 w hf ▸ h)
  · exact encode_of_decode_eq (decode_family9 w hf) h (nibbles_eq_of_fields hf rfl)
  · exact encode_of_decode_eq (decode_familyA w hf) h (addr_eq_of_field hf)
  · exact encode_of_decode_eq (decode_familyB w hf) h (addr_eq_of_field hf)
  · exact encode_of_decode_eq (decode_familyC w hf) h (byte_eq_of_fields hf rfl)
  · exact encode_of_decode_eq (decode_familyD w hf) h (nibbles_eq_of_fields hf rfl)
  · exact encode_of_decodeFamilyE hf (decode_familyE w hf ▸ h)
  · exact encode_of_decodeFamilyF hf (decode_familyF w hf ▸ h)

end

end Sys2Proof

namespace Sys2Proof.Proofs
open Sys2Proof.Machine

/-- Settles O2: each field of the encoded word is the operand it was built from, and the selectors pick its arm. -/
theorem decodeOfEncode : Obligations.DecodeOfEncode :=
  fun i rest => ⟨decode_encode i, decodeBytes_encodeBytes i rest⟩

/-- Settles O3: a word is its family, its selector and the fields decode keeps. -/
theorem encodeOfDecode : Obligations.EncodeOfDecode :=
  fun _ _ => encode_of_decode

end Sys2Proof.Proofs

/-! ## The unknown words (R77) -/

namespace Sys2Proof

section
variable (w : Word)

theorem decodeFamily0_eq_none_iff : decodeFamily0 w = none ↔ fieldKK w ≠ 0xE0#8 ∧ fieldKK w ≠ 0xEE#8 := by
  unfold decodeFamily0; split_ifs <;> simp [*]

/-- The selectors of family 8 are 0 to 7 and E (R74). -/
theorem decodeFamily8_eq_none_iff : decodeFamily8 w = none ↔ 8 ≤ (fieldN w).toNat ∧ fieldN w ≠ 0xE#4 := by
  unfold decodeFamily8
  rcases nibble_cases (fieldN w) with
    hn | hn | hn | hn | hn | hn | hn | hn | hn | hn | hn | hn | hn | hn | hn | hn <;> simp [hn]

theorem decodeFamilyE_eq_none_iff : decodeFamilyE w = none ↔ fieldKK w ≠ 0x9E#8 ∧ fieldKK w ≠ 0xA1#8 := by
  unfold decodeFamilyE; split_ifs <;> simp [*]

theorem decodeFamilyF_eq_none_iff : decodeFamilyF w = none ↔
    fieldKK w ∉ [0x07#8, 0x0A#8, 0x15#8, 0x18#8, 0x1E#8, 0x29#8, 0x33#8, 0x55#8, 0x65#8] := by
  unfold decodeFamilyF; split_ifs <;> simp [*]

/-- The unknown words, by family and selector: only the families with a second level have any. -/
theorem decode_eq_none_iff : decode w = none ↔
    (fieldFam w = 0x0#4 ∧ fieldKK w ≠ 0xE0#8 ∧ fieldKK w ≠ 0xEE#8) ∨
    (fieldFam w = 0x8#4 ∧ 8 ≤ (fieldN w).toNat ∧ fieldN w ≠ 0xE#4) ∨
    (fieldFam w = 0xE#4 ∧ fieldKK w ≠ 0x9E#8 ∧ fieldKK w ≠ 0xA1#8) ∨
    (fieldFam w = 0xF#4 ∧ fieldKK w ∉ [0x07#8, 0x0A#8, 0x15#8, 0x18#8, 0x1E#8, 0x29#8, 0x33#8, 0x55#8, 0x65#8]) := by
  rw [← decodeFamily0_eq_none_iff, ← decodeFamily8_eq_none_iff, ← decodeFamilyE_eq_none_iff,
    ← decodeFamilyF_eq_none_iff]
  rcases nibble_cases (fieldFam w) with
    hf | hf | hf | hf | hf | hf | hf | hf | hf | hf | hf | hf | hf | hf | hf | hf <;> simp [decode, hf]

end

end Sys2Proof

namespace Sys2Proof.Proofs
open Sys2Proof.Machine

/-- Settles O5: the unknown words by their fields, for a word given nibble by nibble. -/
theorem unknownWordsExactly : Obligations.UnknownWordsExactly := by
  intro f x y n
  rw [decode_eq_none_iff, fieldFam_nibbles, fieldKK_nibbles, fieldN_nibbles]
  exact Iff.rfl

end Sys2Proof.Proofs

/-! ## The opcode map (R75) -/

namespace Sys2Proof
open Sys2Proof.Laws

/-- The word of every instruction matches the instruction's row, from the family RowMatch. -/
theorem encode_matches_row : ∀ i : Instr, RowMatch.Statement i
  | .clearDisplay u => RowMatch.clearDisplay u
  | .ret u => RowMatch.ret u
  | .jump nnn => RowMatch.jump nnn
  | .call nnn => RowMatch.call nnn
  | .skipEqImm x kk => RowMatch.skipEqImm x kk
  | .skipNeImm x kk => RowMatch.skipNeImm x kk
  | .skipEqReg x y u => RowMatch.skipEqReg x y u
  | .loadImm x kk => RowMatch.loadImm x kk
  | .addImm x kk => RowMatch.addImm x kk
  | .loadReg x y => RowMatch.loadReg x y
  | .orReg x y => RowMatch.orReg x y
  | .andReg x y => RowMatch.andReg x y
  | .xorReg x y => RowMatch.xorReg x y
  | .addReg x y => RowMatch.addReg x y
  | .subReg x y => RowMatch.subReg x y
  | .shiftRight x y => RowMatch.shiftRight x y
  | .subnReg x y => RowMatch.subnReg x y
  | .shiftLeft x y => RowMatch.shiftLeft x y
  | .skipNeReg x y u => RowMatch.skipNeReg x y u
  | .loadIndexImm nnn => RowMatch.loadIndexImm nnn
  | .jumpOffset nnn => RowMatch.jumpOffset nnn
  | .random x kk => RowMatch.random x kk
  | .drawSprite x y n => RowMatch.drawSprite x y n
  | .skipKeyPressed x => RowMatch.skipKeyPressed x
  | .skipKeyNotPressed x => RowMatch.skipKeyNotPressed x
  | .loadFromDelay x => RowMatch.loadFromDelay x
  | .waitKey x => RowMatch.waitKey x
  | .setDelay x => RowMatch.setDelay x
  | .setSound x => RowMatch.setSound x
  | .addIndex x => RowMatch.addIndex x
  | .loadSpriteAddr x => RowMatch.loadSpriteAddr x
  | .storeBcd x => RowMatch.storeBcd x
  | .storeRegs x => RowMatch.storeRegs x
  | .loadRegs x => RowMatch.loadRegs x

/-! ### The fields a row's mask fixes -/

section
variable {w : Word} {f n : Nibble} {kk : Byte}

/-- Mask 0xF000: the family. -/
theorem fieldFam_of_mask (h : w &&& 0xF000#16 = f ++ 0#12) : fieldFam w = f := by
  rw [word_eq_addr w, RowMatch.family_addr] at h
  simpa using congrArg fieldFam h

theorem fieldFam_family8_bits (f n : Nibble) : fieldFam (f ++ 0#8 ++ n : Word) = f := by
  revert f n; decide

theorem fieldN_family8_bits (f n : Nibble) : fieldN (f ++ 0#8 ++ n : Word) = n := by
  revert f n; decide

/-- Mask 0xF00F: the family and the low nibble. -/
theorem nibbles_eq_of_mask (h : w &&& 0xF00F#16 = f ++ 0#8 ++ n) : f ++ fieldX w ++ fieldY w ++ n = w := by
  rw [word_eq_nibbles w, RowMatch.selector_nibbles] at h
  exact nibbles_eq_of_fields (by simpa only [fieldFam_family8_bits] using congrArg fieldFam h)
    (by simpa only [fieldN_family8_bits] using congrArg fieldN h)

/-- Mask 0xF0FF: the family and the low byte. -/
theorem byte_eq_of_mask (h : w &&& 0xF0FF#16 = f ++ 0#4 ++ kk) : f ++ fieldX w ++ kk = w := by
  rw [word_eq_byte w, RowMatch.selector_byte] at h
  exact byte_eq_of_fields (by simpa using congrArg fieldFam h) (by simpa using congrArg fieldKK h)

end

/-- A word that matches the row of `j` is the word of an instruction of that row, with the word's own fields. -/
theorem exists_encode_of_matches {w : Word} {j : Instr} (h : w &&& j.row.mask = j.row.bits) :
    ∃ i, encode i = w ∧ i.row = j.row := by
  cases j with
  | clearDisplay => exact ⟨.clearDisplay (fieldX w), byte_eq_of_mask h, rfl⟩
  | ret => exact ⟨.ret (fieldX w), byte_eq_of_mask h, rfl⟩
  | jump => exact ⟨.jump (fieldNNN w), addr_eq_of_field (fieldFam_of_mask h), rfl⟩
  | call => exact ⟨.call (fieldNNN w), addr_eq_of_field (fieldFam_of_mask h), rfl⟩
  | skipEqImm => exact ⟨.skipEqImm (fieldX w) (fieldKK w), byte_eq_of_fields (fieldFam_of_mask h) rfl, rfl⟩
  | skipNeImm => exact ⟨.skipNeImm (fieldX w) (fieldKK w), byte_eq_of_fields (fieldFam_of_mask h) rfl, rfl⟩
  | skipEqReg =>
    exact ⟨.skipEqReg (fieldX w) (fieldY w) (fieldN w), nibbles_eq_of_fields (fieldFam_of_mask h) rfl, rfl⟩
  | loadImm => exact ⟨.loadImm (fieldX w) (fieldKK w), byte_eq_of_fields (fieldFam_of_mask h) rfl, rfl⟩
  | addImm => exact ⟨.addImm (fieldX w) (fieldKK w), byte_eq_of_fields (fieldFam_of_mask h) rfl, rfl⟩
  | loadReg => exact ⟨.loadReg (fieldX w) (fieldY w), nibbles_eq_of_mask h, rfl⟩
  | orReg => exact ⟨.orReg (fieldX w) (fieldY w), nibbles_eq_of_mask h, rfl⟩
  | andReg => exact ⟨.andReg (fieldX w) (fieldY w), nibbles_eq_of_mask h, rfl⟩
  | xorReg => exact ⟨.xorReg (fieldX w) (fieldY w), nibbles_eq_of_mask h, rfl⟩
  | addReg => exact ⟨.addReg (fieldX w) (fieldY w), nibbles_eq_of_mask h, rfl⟩
  | subReg => exact ⟨.subReg (fieldX w) (fieldY w), nibbles_eq_of_mask h, rfl⟩
  | shiftRight => exact ⟨.shiftRight (fieldX w) (fieldY w), nibbles_eq_of_mask h, rfl⟩
  | subnReg => exact ⟨.subnReg (fieldX w) (fieldY w), nibbles_eq_of_mask h, rfl⟩
  | shiftLeft => exact ⟨.shiftLeft (fieldX w) (fieldY w), nibbles_eq_of_mask h, rfl⟩
  | skipNeReg =>
    exact ⟨.skipNeReg (fieldX w) (fieldY w) (fieldN w), nibbles_eq_of_fields (fieldFam_of_mask h) rfl, rfl⟩
  | loadIndexImm => exact ⟨.loadIndexImm (fieldNNN w), addr_eq_of_field (fieldFam_of_mask h), rfl⟩
  | jumpOffset => exact ⟨.jumpOffset (fieldNNN w), addr_eq_of_field (fieldFam_of_mask h), rfl⟩
  | random => exact ⟨.random (fieldX w) (fieldKK w), byte_eq_of_fields (fieldFam_of_mask h) rfl, rfl⟩
  | drawSprite =>
    exact ⟨.drawSprite (fieldX w) (fieldY w) (fieldN w), nibbles_eq_of_fields (fieldFam_of_mask h) rfl, rfl⟩
  | skipKeyPressed => exact ⟨.skipKeyPressed (fieldX w), byte_eq_of_mask h, rfl⟩
  | skipKeyNotPressed => exact ⟨.skipKeyNotPressed (fieldX w), byte_eq_of_mask h, rfl⟩
  | loadFromDelay => exact ⟨.loadFromDelay (fieldX w), byte_eq_of_mask h, rfl⟩
  | waitKey => exact ⟨.waitKey (fieldX w), byte_eq_of_mask h, rfl⟩
  | setDelay => exact ⟨.setDelay (fieldX w), byte_eq_of_mask h, rfl⟩
  | setSound => exact ⟨.setSound (fieldX w), byte_eq_of_mask h, rfl⟩
  | addIndex => exact ⟨.addIndex (fieldX w), byte_eq_of_mask h, rfl⟩
  | loadSpriteAddr => exact ⟨.loadSpriteAddr (fieldX w), byte_eq_of_mask h, rfl⟩
  | storeBcd => exact ⟨.storeBcd (fieldX w), byte_eq_of_mask h, rfl⟩
  | storeRegs => exact ⟨.storeRegs (fieldX w), byte_eq_of_mask h, rfl⟩
  | loadRegs => exact ⟨.loadRegs (fieldX w), byte_eq_of_mask h, rfl⟩

/-! ### The rows of the map are the rows of the instructions -/

theorem row_mem_opcodeMap (i : Instr) : i.row ∈ opcodeMap := by
  cases i <;> simp [opcodeMap, Instr.row]

theorem exists_row_of_mem_opcodeMap {r : OpcodeRow} (h : r ∈ opcodeMap) : ∃ j : Instr, j.row = r := by
  simp only [opcodeMap, List.mem_append, List.mem_map] at h
  rcases h with ((((⟨j, -, hj⟩ | ⟨j, -, hj⟩) | ⟨j, -, hj⟩) | ⟨j, -, hj⟩) | ⟨j, -, hj⟩) | ⟨j, -, hj⟩ <;> exact ⟨j, hj⟩

/-- R75: a word matches a row of the map exactly when it decodes to an instruction of that row. -/
theorem matches_iff_decode {r : OpcodeRow} (hr : r ∈ opcodeMap) (w : Word) :
    w &&& r.mask = r.bits ↔ ∃ i, decode w = some i ∧ i.row = r := by
  constructor
  · intro h
    obtain ⟨j, rfl⟩ := exists_row_of_mem_opcodeMap hr
    obtain ⟨i, rfl, hrow⟩ := exists_encode_of_matches h
    exact ⟨i, decode_encode i, hrow⟩
  · rintro ⟨i, hi, rfl⟩
    exact encode_of_decode hi ▸ encode_matches_row i

/-- R77: a word is unknown exactly when it matches no row of the map. -/
theorem decode_eq_none_iff_no_row (w : Word) : decode w = none ↔ ∀ r ∈ opcodeMap, w &&& r.mask ≠ r.bits := by
  constructor
  · intro hnone r hr h
    obtain ⟨i, hi, -⟩ := (matches_iff_decode hr w).mp h
    exact absurd (hnone.symm.trans hi) (by simp)
  · intro hno
    by_contra hsome
    obtain ⟨i, hi⟩ := Option.ne_none_iff_exists'.mp hsome
    exact hno _ (row_mem_opcodeMap i) ((matches_iff_decode (row_mem_opcodeMap i) w).mpr ⟨i, hi, rfl⟩)

end Sys2Proof

namespace Sys2Proof.Proofs
open Sys2Proof.Machine

/-- Settles O4: matching a row is decoding to an instruction of it, so a word that matches two rows gives one
instruction the row of both. -/
theorem decodeIsTheOpcodeMap : Obligations.DecodeIsTheOpcodeMap := by
  refine ⟨rfl, fun w r q hr hq hwr hwq => ?_,
    fun w => ⟨fun _ hr => matches_iff_decode hr w, decode_eq_none_iff_no_row w⟩⟩
  obtain ⟨i, hi, rfl⟩ := (matches_iff_decode hr w).mp hwr
  obtain ⟨j, hj, rfl⟩ := (matches_iff_decode hq w).mp hwq
  exact congrArg Instr.row (Option.some.inj (hi.symm.trans hj))

end Sys2Proof.Proofs

/-! ## The ignored bits (R78) and the words of the spec -/

namespace Sys2Proof.Machine

/-- A Return that completes reads nothing of its ignored nibble, which only a fault's record shows (log 9). -/
theorem exec_ret_running {u v : Nibble} {s t : State} (ht : t.Running) (h : exec (.ret u) s = .next t) :
    exec (.ret v) s = .next t := by
  rcases pop_cases s with ⟨hp, -⟩ | ⟨hpos, hp⟩
  · simp only [exec, execRet, hp] at h
    cases h
    exact absurd ht (by simp [State.Running, State.raise])
  · simp only [exec, execRet, hp] at h ⊢
    exact h

end Sys2Proof.Machine

namespace Sys2Proof.Proofs
open Sys2Proof.Machine

/-- Settles O6: Return apart, the handler is not even given the ignored field. -/
theorem ignoredBitsRunIdentically : Obligations.IgnoredBitsRunIdentically := by
  intro i s t _ ht
  cases i with
  | ret u => exact ⟨exec_ret_running ht, exec_ret_running ht⟩
  | _ => exact Iff.rfl

/-- Settles O1: the decoder evaluated on each word. -/
theorem specWordsDecode : Obligations.SpecWordsDecode := by
  unfold Obligations.SpecWordsDecode
  decide

end Sys2Proof.Proofs

/-! ## The causes a handler raises (R170) -/

namespace Sys2Proof.Machine

theorem faulted_cause_inj {s : State} {i : Instr} {c d : Fault} (h : s.faulted c i = s.faulted d i) : c = d := by
  injection h with _ _ _ _ _ _ _ _ _ _ hrec
  injection hrec with hrec
  injection hrec

theorem rangeFault_ne_fetch (s : State) (last : Nat) : s.rangeFault last ≠ some .fetchOutOfRange := by
  unfold State.rangeFault
  split <;> simp

theorem storeFault_ne_fetch (s : State) (last : Nat) : s.storeFault last ≠ some .fetchOutOfRange := by
  by_cases hr : s.inRange last
  · by_cases hf : s.hitsFont last
    · simp [storeFault_hits s last hr hf]
    · simp [(storeFault_iff s last).mpr ⟨hr, hf⟩]
  · simp [storeFault_range s last (Nat.lt_of_not_le hr)]

theorem drawFault_ne_fetch (s : State) (n : Nibble) : s.drawFault n ≠ some .fetchOutOfRange := by
  unfold State.drawFault
  split
  · exact rangeFault_ne_fetch s _
  · simp

theorem keyFault_ne_fetch (v : Byte) : keyFault v ≠ some .fetchOutOfRange := by
  unfold keyFault
  split <;> simp

/-- A guarded handler that ends in a fault entry, its check failing, has that fault from its check. -/
theorem check_of_guarded_faulted {s effect : State} {check : Option Fault} {i : Instr} {c : Fault}
    (hfails : check ≠ none) (h : s.guarded check i effect = .next (s.faulted c i)) : check = some c := by
  rcases guarded_cases _ _ _ _ _ h with ⟨d, hd, heq⟩ | ⟨hnone, -⟩
  · exact faulted_cause_inj heq ▸ hd
  · exact absurd hnone hfails

/-- Code 1 is the fetch's own: no handler raises it (R170, R174). -/
theorem exec_cause_ne_fetch {i : Instr} {s : State} {c : Fault} (hrun : s.Running)
    (h : exec i s = .next (s.faulted c i)) : c ≠ .fetchOutOfRange := by
  rintro rfl
  rcases exec_next_cases h with ⟨-, hw⟩ | ⟨hc, -⟩
  · exact absurd (hw.fault.trans hrun) (by simp [State.faulted])
  cases i with
  | ret u =>
    rcases pop_cases s with ⟨hp, -⟩ | ⟨hpos, -⟩
    · simp only [exec, execRet, hp] at h
      exact absurd (faulted_cause_inj (Host.Outcome.next.inj h)) (by simp)
    · exact hc hpos
  | call nnn =>
    rcases push_cases s s.pc with ⟨hp, -⟩ | ⟨hlt, -⟩
    · simp only [exec, execCall, hp] at h
      exact absurd (faulted_cause_inj (Host.Outcome.next.inj h)) (by simp)
    · exact hc hlt
  | drawSprite x y n =>
    exact drawFault_ne_fetch s n (check_of_guarded_faulted (mt (drawFault_iff s n).mp hc) h)
  | skipKeyPressed x | skipKeyNotPressed x =>
    exact keyFault_ne_fetch _ (check_of_guarded_faulted (mt (keyFault_eq_none_iff _).mp hc) h)
  | storeBcd x =>
    exact storeFault_ne_fetch s 2 (check_of_guarded_faulted (mt (storeFault_iff s 2).mp hc) h)
  | storeRegs x =>
    exact storeFault_ne_fetch s x.toNat (check_of_guarded_faulted (mt (storeFault_iff s x.toNat).mp hc) h)
  | loadRegs x =>
    exact rangeFault_ne_fetch s x.toNat (check_of_guarded_faulted (mt (rangeFault_none s x.toNat).mp hc) h)
  | _ => exact hc trivial

end Sys2Proof.Machine

/-! ## The inputs of a step (R97) -/

namespace Sys2Proof.Machine

/-- The same state offered another keypad sample and another random byte (R34). -/
def State.withInputs (s : State) (k : Word) (b : Byte) : State := { s with keys := k, rnd := b }

section
variable (s : State) (k : Word) (b : Byte)

@[simp] theorem withInputs_pc : (s.withInputs k b).pc = s.pc := rfl

theorem withInputs_of_keys (h : s.keys = k) : s.withInputs k b = { s with rnd := b } := h ▸ rfl

theorem withInputs_of_rnd (h : s.rnd = b) : s.withInputs k b = { s with keys := k } := h ▸ rfl

/-- The lowest pressed key reads the keypad sample alone. -/
theorem lowestKey_withInputs : (s.withInputs s.keys b).lowestKey = s.lowestKey := rfl

theorem pop_withInputs : (s.withInputs k b).pop = s.pop.map fun p => (p.1, p.2.withInputs k b) := by
  by_cases h : 0 < s.sp.val <;> simp [State.pop, State.withInputs, h]

theorem push_withInputs (w : Word) : (s.withInputs k b).push w = (s.push w).map (·.withInputs k b) := by
  by_cases h : s.sp.val < 16 <;> simp [State.push, State.withInputs, h]

theorem setRegs_withInputs (i : Nat) (vs : List Byte) :
    (s.withInputs k b).setRegs i vs = (s.setRegs i vs).withInputs k b := by
  induction vs generalizing s i with
  | nil => rfl
  | cons v vs ih => exact ih (s.setV _ v) (i + 1)

theorem skipIf_withInputs (c : Bool) : (s.withInputs k b).skipIf c = (s.skipIf c).withInputs k b := by
  cases c <;> rfl

end

/-- A fault entry writes no input. -/
theorem guarded_withInputs {s effect effect' t : State} {k : Word} {b : Byte} {check : Option Fault} {i : Instr}
    (heff : effect' = effect.withInputs k b) (h : s.guarded check i effect = .next t) :
    (s.withInputs k b).guarded check i effect' = .next (t.withInputs k b) := by
  subst heff
  rcases guarded_cases _ _ _ _ _ h with ⟨c, rfl, rfl⟩ | ⟨rfl, rfl⟩ <;> rfl

/-- A handler writes no input (R20). -/
theorem exec_inputs {i : Instr} {s t : State} (h : exec i s = .next t) : t.keys = s.keys ∧ t.rnd = s.rnd := by
  rcases exec_next_cases h with ⟨-, hw⟩ | ⟨-, c, rfl⟩
  · exact ⟨hw.keys, hw.rnd⟩
  · exact ⟨rfl, rfl⟩

/-- A handler given other values of the inputs it does not read does the same (R97). -/
theorem exec_withInputs {i : Instr} {s t : State} {k : Word} {b : Byte}
    (hk : (∀ x, i ≠ .skipKeyPressed x ∧ i ≠ .skipKeyNotPressed x ∧ i ≠ .waitKey x) ∨ k = s.keys)
    (hb : (∀ x kk, i ≠ .random x kk) ∨ b = s.rnd) (h : exec i s = .next t) :
    exec i (s.withInputs k b) = .next (t.withInputs k b) := by
  cases i with
  | ret u =>
    simp only [exec, execRet, pop_withInputs] at h ⊢
    cases hp : s.pop <;> rw [hp] at h <;> obtain rfl := Host.Outcome.next.inj h <;> rfl
  | call nnn =>
    simp only [exec, execCall, push_withInputs, withInputs_pc] at h ⊢
    cases hp : s.push s.pc <;> rw [hp] at h <;> obtain rfl := Host.Outcome.next.inj h <;> rfl
  | random x kk =>
    obtain rfl := hb.resolve_left fun hn => hn x kk rfl
    obtain rfl := Host.Outcome.next.inj h
    rfl
  | waitKey x =>
    obtain rfl := hk.resolve_left fun hn => (hn x).2.2 rfl
    simp only [exec, execWaitKey, lowestKey_withInputs] at h ⊢
    cases hl : s.lowestKey <;> rw [hl] at h <;> obtain rfl := Host.Outcome.next.inj h <;> rfl
  | skipKeyPressed x =>
    obtain rfl := hk.resolve_left fun hn => (hn x).1 rfl
    exact guarded_withInputs (skipIf_withInputs s s.keys b _) h
  | skipKeyNotPressed x =>
    obtain rfl := hk.resolve_left fun hn => (hn x).2.1 rfl
    exact guarded_withInputs (skipIf_withInputs s s.keys b _) h
  | skipEqImm x kk | skipNeImm x kk | skipEqReg x y u | skipNeReg x y u =>
    obtain rfl := Host.Outcome.next.inj h
    exact congrArg Host.Outcome.next (skipIf_withInputs s k b _)
  | loadRegs x => exact guarded_withInputs (setRegs_withInputs s k b 0 _) h
  | drawSprite x y n | storeBcd x | storeRegs x => exact guarded_withInputs rfl h
  | _ =>
    obtain rfl := Host.Outcome.next.inj h
    rfl

end Sys2Proof.Machine

namespace Sys2Proof.Proofs
open Sys2Proof.Machine

/-- Settles O16: an input the handler does not read may be any value, and the handler leaves both inputs. -/
theorem inputsMatterOnlyWhereRead : Obligations.InputsMatterOnlyWhereRead := by
  intro i s t k b h
  obtain ⟨hkeys, hrnd⟩ := exec_inputs h
  constructor
  · intro hi
    simpa only [withInputs_of_keys, hkeys] using exec_withInputs (k := s.keys) (.inr rfl) (.inl hi) h
  · intro hi
    simpa only [withInputs_of_rnd, hrnd] using exec_withInputs (b := s.rnd) (.inl hi) (.inr rfl) h

end Sys2Proof.Proofs

/-! ## The step: its faults, its timers, parked states (R90 to R98) -/

namespace Sys2Proof.Machine

theorem step_next_unique {s t u : State} (h : step s = .next t) (hu : step s = .next u) : t = u :=
  Host.Outcome.next.inj (h.symm.trans hu)

/-- What a completed step is: the handler of the fetched word on the advanced `pc`, then the end of the step. -/
theorem completed_step {s t : State} (hrun : s.Running) (h : step s = .next t) (ht : t.Running) :
    ∃ i u, decode (s.mem.read s.pc.toNat ++ s.mem.read (s.pc.toNat + 1)) = some i ∧
      exec i s.advance = .next u ∧ WritesOnly i s.advance u ∧ t = u.tick.supplyInputs := by
  rcases step_cases s with ⟨hf, -⟩ | ⟨-, -, hu⟩ | ⟨-, -, -, hu⟩ | ⟨i, c, -, -, -, -, hu⟩ |
    ⟨i, u, -, -, hd, he, hnone, -, -, -, -, -, hu⟩
  · exact absurd hrun hf
  · exact absurd (step_next_unique h hu ▸ ht) (by simp [State.Running])
  · exact absurd (step_next_unique h hu ▸ ht) (by simp [State.Running])
  · exact absurd (step_next_unique h hu ▸ ht) (by simp [State.Running])
  · rcases exec_next_cases he with ⟨-, hw⟩ | ⟨-, c, rfl⟩
    · exact ⟨i, u, hd, he, hw, step_next_unique h hu⟩
    · exact absurd hnone (by simp [State.faulted])

/-- The Jump a parked core runs is to `pc` itself, which the fetch bounds (R98). -/
theorem jump_to_self {pc : Word} (h : pc.toNat ≤ 0xFFE) :
    encode (.jump (pc.setWidth 12)) = 0x1000#16 + pc ∧ zextAddr (pc.setWidth 12) = pc := by
  constructor
  · apply BitVec.eq_of_toNat_eq
    have hnum : (encode (.jump (pc.setWidth 12))).toNat = 1 * 2 ^ 12 + pc.toNat % 2 ^ 12 := append_toNat 4 12 _ _
    have hbase : (0x1000#16).toNat = 0x1000 := rfl
    rw [hnum, BitVec.toNat_add, hbase]
    omega
  · apply BitVec.eq_of_toNat_eq
    rw [zextAddr, BitVec.toNat_setWidth, BitVec.toNat_setWidth]
    omega

/-- A parked core's step is the end of a step alone (R98). -/
theorem State.Parked.step_eq {s : State} (h : s.Parked) : step s = .next s.tick.supplyInputs := by
  obtain ⟨hrun, hfetch⟩ := h
  have hpc : s.pc.toNat ≤ 0xFFE := by
    by_contra hhi
    simp [(fetch_none s).mpr (by omega)] at hfetch
  obtain ⟨hword, htarget⟩ := jump_to_self hpc
  have hdecode : decode (0x1000#16 + s.pc) = some (.jump (s.pc.setWidth 12)) := hword ▸ decode_encode _
  have hexec : exec (.jump (s.pc.setWidth 12)) s.advance = .next s :=
    congrArg (fun p => (Host.Outcome.next { s with pc := p } : Host.Outcome State Fault Refusal)) htarget
  exact step_of_completed s _ _ s hrun hfetch hdecode hexec hrun

/-- The end of a step leaves what parks a core: the record, `pc` and memory (R98). -/
theorem State.Parked.endStep {s : State} (h : s.Parked) : s.tick.supplyInputs.Parked := h

theorem State.Parked.safeFor {s : State} (h : s.Parked) (k : Nat) : SafeFor k s := by
  induction k generalizing s with
  | zero => exact h.1
  | succ k ih => exact ⟨h.1, _, h.step_eq, ih h.endStep⟩

/-- A Faulted core answers itself in any number of steps (R96). -/
theorem run_of_faulted {s : State} (h : s.fault ≠ none) (k : Nat) : Sys2Proof.core.run k s = .next s := by
  induction k with
  | zero => rfl
  | succ k ih =>
    have hstep : Sys2Proof.core.step s = .next s := step_of_faulted s h
    simp only [Host.Core.run, hstep]
    exact ih

end Sys2Proof.Machine

namespace Sys2Proof.Proofs
open Sys2Proof.Machine

/-- Settles O11, by the cases of a step. -/
theorem stepAnswersNext : Obligations.StepAnswersNext := by
  intro s
  rcases step_cases s with ⟨-, h⟩ | ⟨-, -, h⟩ | ⟨-, -, -, h⟩ | ⟨i, c, -, -, -, -, h⟩ |
    ⟨i, u, -, -, -, -, -, -, -, -, -, -, h⟩ <;> exact ⟨_, h⟩

/-- Settles O12: the fetch, the decode and the handler each write the record alone, and the word of the decoded
instruction is the fetched one. -/
theorem faultsArePrecise : Obligations.FaultsArePrecise := by
  intro s t r hrun h hr
  rcases step_cases s with ⟨hf, -⟩ | ⟨-, hpc, hu⟩ | ⟨-, hpc, -, hu⟩ | ⟨i, c, -, hpc, hd, he, hu⟩ |
    ⟨i, u, -, -, -, -, hnone, -, -, -, -, -, hu⟩
  · exact absurd hrun hf
  · obtain rfl := step_next_unique h hu
    obtain rfl := Option.some.inj hr
    exact ⟨rfl, rfl, .inl ⟨rfl, hpc, rfl⟩⟩
  · obtain rfl := step_next_unique h hu
    obtain rfl := Option.some.inj hr
    exact ⟨rfl, rfl, .inr ⟨by simp, hpc, rfl⟩⟩
  · obtain rfl := step_next_unique h hu
    obtain rfl := Option.some.inj hr
    exact ⟨rfl, rfl, .inr ⟨exec_cause_ne_fetch (s := s.advance) hrun he, hpc, encode_of_decode hd⟩⟩
  · obtain rfl := step_next_unique h hu
    exact absurd (hnone.symm.trans hr) (by simp)

/-- Settles O15: the completed handler leaves a timer it does not set, and the tick lowers it. -/
theorem timersTickEveryStep : Obligations.TimersTickEveryStep := by
  intro s t i hrun h ht hd
  obtain ⟨j, u, hj, -, hw, rfl⟩ := completed_step hrun h ht
  obtain rfl := Option.some.inj (hj.symm.trans hd)
  constructor
  · intro hi
    rw [supplyInputs_DT, tick_DT, tickDown_toNat, hw.DT hi, advance_DT]
  · intro hi
    rw [supplyInputs_ST, tick_ST, tickDown_toNat, hw.ST hi, advance_ST]

/-- Settles O17: a parked step is the Jump to `pc` itself, so only the end of the step shows. -/
theorem parkedStaysParked : Obligations.ParkedStaysParked := by
  intro s h
  refine ⟨h.safeFor, _, h.step_eq, h.endStep, ?_, tickDown_toNat s.DT, tickDown_toNat s.ST⟩
  exact ⟨fun _ _ => rfl, fun _ => rfl, fun _ => rfl, fun _ => ⟨rfl, rfl⟩, nofun, nofun, fun _ => rfl, fun _ _ => rfl,
    rfl, rfl, rfl, rfl, rfl, rfl⟩

/-- Settles O55: each word is the word of its timer instruction, whose handler completes. -/
theorem timerStepsTick : Obligations.TimerStepsTick := by
  intro x s hrun
  refine ⟨fun hf => ?_, fun hf => ?_, fun hf => ?_⟩
  · exact ⟨_, step_of_completed s _ _ _ hrun hf (decode_encode (.setDelay x)) rfl hrun, rfl,
      tickDown_toNat (s.getV x), tickDown_toNat s.ST⟩
  · exact ⟨_, step_of_completed s _ _ _ hrun hf (decode_encode (.setSound x)) rfl hrun, rfl,
      tickDown_toNat (s.getV x), tickDown_toNat s.DT⟩
  · exact ⟨_, step_of_completed s _ _ _ hrun hf (decode_encode (.loadFromDelay x)) rfl hrun, rfl,
      getV_setV_same s.advance x s.DT, tickDown_toNat s.DT⟩

/-- Settles O7: the step of a decoded word is its handler on the advanced `pc` and the end of the step. -/
theorem stepRunsDecodedInstruction : Obligations.StepRunsDecodedInstruction := by
  intro s t i hrun hpc hd he
  constructor
  · exact step_of_completed s _ i t hrun (fetch_some s hpc) hd he
  · intro ht
    rw [step_of_decoded s _ i t hrun (fetch_some s hpc) hd he,
      finish_of_fault t (Option.isSome_iff_ne_none.mpr ht)]

/-- Settles O8: no word is fetched. -/
theorem fetchOutOfRangeFaults : Obligations.FetchOutOfRangeFaults :=
  fun s hrun hpc => step_of_fetch_none s hrun ((fetch_none s).mpr hpc)

/-- Settles O10, by induction on the number of steps. -/
theorem faultedIsFinal : Obligations.FaultedIsFinal := fun _ k h => run_of_faulted h k

end Sys2Proof.Proofs

/-! ## Control transfer (spec 41_flow.md) -/

namespace Sys2Proof.Machine

/-! ### Targets as numbers (R101, R102, R107) -/

@[simp] theorem zextAddr_toNat (nnn : Addr) : (zextAddr nnn).toNat = nnn.toNat :=
  BitVec.toNat_setWidth_of_le (by decide)

@[simp] theorem zextByte_toNat (v : Byte) : (zextByte v).toNat = v.toNat :=
  BitVec.toNat_setWidth_of_le (by decide)

/-- 0xFFF + 0xFF is below 2^16, so the sum is not reduced. -/
theorem jumpOffset_target_toNat (nnn : Addr) (v : Byte) :
    (zextAddr nnn + zextByte v).toNat = nnn.toNat + v.toNat := by
  have haddr := nnn.isLt
  have hbyte := v.isLt
  rw [BitVec.toNat_add, zextAddr_toNat, zextByte_toNat]
  omega

/-! ### The stack (R25, R100, R102) -/

/-- The frame of Call and Return. -/
theorem frame_pc_stack (s : State) (p : Word) (stk : Vector Word 16) (n : Fin 17) :
    Frame { pc := true, stack := true } s { s with pc := p, stack := stk, sp := n } := by
  constructor <;> simp [State.getV]

theorem exec_ret_of_pos (u : Nibble) {s : State} (h : 0 < s.sp.val) :
    exec (.ret u) s = .next { s with sp := ⟨s.sp.val - 1, by omega⟩, pc := s.stack[s.sp.val - 1] } := by
  simp only [exec, execRet, State.pop, dif_pos h]

theorem exec_ret_of_empty (u : Nibble) {s : State} (h : s.sp.val = 0) :
    exec (.ret u) s = .next (s.faulted .stackUnderflow (.ret u)) := by
  simp only [exec, execRet, State.pop, dif_neg h.not_gt, raise_eq_faulted]

theorem exec_call_of_room (nnn : Addr) {s : State} (h : s.sp.val < 16) :
    exec (.call nnn) s = .next
      { s with stack := s.stack.set s.sp.val s.pc h, sp := ⟨s.sp.val + 1, by omega⟩, pc := zextAddr nnn } := by
  simp only [exec, execCall, State.push, dif_pos h]

theorem exec_call_of_full (nnn : Addr) {s : State} (h : s.sp.val = 16) :
    exec (.call nnn) s = .next (s.faulted .stackOverflow (.call nnn)) := by
  simp only [exec, execCall, State.push, dif_neg h.not_lt, raise_eq_faulted]

/-! ### Skips (R103 to R106) -/

/-- A handler that is `skipIf` of a test moves `pc` by 2 where the test holds, leaves it where it fails, and touches
nothing else. -/
theorem exec_skip {i : Instr} {s : State} {b : Bool} {P Q : Prop} (he : exec i s = .next (s.skipIf b))
    (hP : P → b = true) (hQ : Q → b = false) :
    ∃ t, exec i s = .next t ∧ (P → t.pc = s.pc + 2) ∧ (Q → t.pc = s.pc) ∧ Frame { pc := true } s t := by
  rw [skipIf_eq] at he
  exact ⟨_, he, fun p => if_pos (hP p), fun q => if_neg (by simp [hQ q]), frame_pc s _⟩

end Sys2Proof.Machine

namespace Sys2Proof.Proofs
open Sys2Proof.Machine

/-- Settles O27: Return on a stack in use and on an empty one. -/
theorem returnPops : Obligations.ReturnPops := fun u s =>
  ⟨decode_encode (.ret u),
    fun h => ⟨_, exec_ret_of_pos u h, rfl, rfl, rfl, frame_pc_stack s _ _ _⟩,
    exec_ret_of_empty u⟩

/-- Settles O28: zero extension keeps the address. -/
theorem jumpSetsPc : Obligations.JumpSetsPc := fun nnn s =>
  ⟨decode_encode (.jump nnn), _, rfl, zextAddr_toNat nnn, frame_pc s _⟩

/-- Settles O29: Call on a stack with room and on a full one. -/
theorem callPushes : Obligations.CallPushes := by
  refine fun nnn s => ⟨decode_encode (.call nnn), fun h => ?_, exec_call_of_full nnn⟩
  have hpushed : (s.stack.set s.sp.val s.pc h)[s.sp.val] = s.pc := Vector.getElem_set_self h
  have hothers : ∀ (j : Nat) (hj : j < 16), j ≠ s.sp.val → (s.stack.set s.sp.val s.pc h)[j] = s.stack[j] :=
    fun j hj hne => Vector.getElem_set_ne h hj hne.symm
  exact ⟨_, exec_call_of_room nnn h, rfl, hpushed, hothers, zextAddr_toNat nnn, frame_pc_stack s _ _ _⟩

/-- Settles O30: Return reads the entry Call pushed. -/
theorem returnUndoesCall : Obligations.ReturnUndoesCall := by
  intro nnn u s t hroom hcall
  obtain ⟨h, rfl⟩ := exec_call_next hcall hroom
  exact ⟨_, exec_ret_of_pos u (Nat.succ_pos _), Vector.getElem_set_self h, rfl⟩

/-- Settles O31: each handler is a skip on the test `V[x] == kk`, or on its negation. -/
theorem immediateSkips : Obligations.ImmediateSkips := fun x kk _ =>
  ⟨decode_encode (.skipEqImm x kk), decode_encode (.skipNeImm x kk),
    exec_skip rfl beq_iff_eq.mpr beq_eq_false_iff_ne.mpr,
    exec_skip rfl bne_iff_ne.mpr bne_eq_false_iff_eq.mpr⟩

/-- Settles O32: each handler is a skip on the test `V[x] == V[y]`, or on its negation, whatever the low nibble. -/
theorem registerSkips : Obligations.RegisterSkips := fun x y u _ =>
  ⟨decode_encode (.skipEqReg x y u), decode_encode (.skipNeReg x y u),
    exec_skip rfl beq_iff_eq.mpr beq_eq_false_iff_ne.mpr,
    exec_skip rfl bne_iff_ne.mpr bne_eq_false_iff_eq.mpr⟩

/-- Settles O33: the sum of an address and a byte stays below 2^16. -/
theorem jumpOffsetAddsV0 : Obligations.JumpOffsetAddsV0 := fun nnn s =>
  ⟨decode_encode (.jumpOffset nnn), _, rfl, jumpOffset_target_toNat nnn (s.getV 0),
    jumpOffset_target_le nnn (s.getV 0), frame_pc s _⟩

end Sys2Proof.Proofs

/-! ## Loads, arithmetic, logic, shifts, random (spec 42_alu.md) -/

namespace Sys2Proof.Machine

section
variable {i : Instr} {s : State} {x y : Reg} {v f : Byte}

/-- A handler that is one register write (R120 to R125, R131). -/
theorem exec_setV (he : exec i s = .next (s.setV x v)) :
    ∃ t, exec i s = .next t ∧ t.getV x = v ∧ Frame { regs := [x] } s t :=
  ⟨_, he, getV_setV_same s x v, frame_setV s x v [x] (List.mem_singleton_self x)⟩

/-- A handler that writes the flag and then its result (R126 to R130): the result stands in `V[x]`, over the flag where
`x` is 15 (D10). -/
theorem exec_setV_flag (he : exec i s = .next ((s.setV VF f).setV x v)) :
    ∃ t, exec i s = .next t ∧ Frame { regs := [x, 15] } s t ∧ t.getV x = v ∧ (x ≠ 15 → t.getV 15 = f) := by
  refine ⟨_, he, frame_setV_flag s x v f, getV_setV_same _ x v, fun hx => ?_⟩
  rw [getV_setV_other _ x 15 v hx]
  exact getV_setV_same s VF f

/-- The four cases of R133: an operand in register 15 is the flag just written (D10). -/
theorem exec_flag_then_op {op : Byte → Byte → Byte}
    (he : exec i s = .next ((s.setV VF f).setV x (op ((s.setV VF f).getV x) ((s.setV VF f).getV y)))) :
    ∃ t, exec i s = .next t ∧ Frame { regs := [x, 15] } s t ∧
      (x ≠ 15 → y ≠ 15 → t.getV 15 = f ∧ t.getV x = op (s.getV x) (s.getV y)) ∧
      (x = 15 → y ≠ 15 → t.getV 15 = op f (s.getV y)) ∧
      (x ≠ 15 → y = 15 → t.getV 15 = f ∧ t.getV x = op (s.getV x) f) ∧
      (x = 15 → y = 15 → t.getV 15 = op f f) := by
  obtain ⟨t, ht, hframe, hres, hflag⟩ := exec_setV_flag he
  have hkept : ∀ z : Reg, z ≠ 15 → (s.setV VF f).getV z = s.getV z := fun z hz => getV_setV_other s VF z f hz.symm
  have hnew : (s.setV VF f).getV 15 = f := getV_setV_same s VF f
  refine ⟨t, ht, hframe, fun hx hy => ⟨hflag hx, ?_⟩, fun hx hy => ?_, fun hx hy => ⟨hflag hx, ?_⟩, fun hx hy => ?_⟩
  · rw [hres, hkept x hx, hkept y hy]
  · subst hx; rw [hres, hnew, hkept y hy]
  · subst hy; rw [hres, hkept x hx, hnew]
  · subst hx; subst hy; rw [hres, hnew]

/-- As `exec_flag_then_op`, for the shifts' one operand (R128, R130). -/
theorem exec_flag_then_unary {op : Byte → Byte}
    (he : exec i s = .next ((s.setV VF f).setV x (op ((s.setV VF f).getV x)))) :
    ∃ t, exec i s = .next t ∧ Frame { regs := [x, 15] } s t ∧
      (x ≠ 15 → t.getV 15 = f ∧ t.getV x = op (s.getV x)) ∧ (x = 15 → t.getV 15 = op f) := by
  obtain ⟨t, ht, hframe, hother, -, -, hboth⟩ := exec_flag_then_op (y := x) (op := fun a _ => op a) he
  exact ⟨t, ht, hframe, fun hx => hother hx hx, fun hx => hboth hx hx⟩

end

/-! ### Flags as conditions (R22, R126, R127) -/

theorem carryFlag_eq (a b : Byte) : carryFlag a b = if a.toNat + b.toNat > 255 then 1 else 0 := by
  simp only [carryFlag, flagByte, decide_eq_true_eq]

theorem notBorrowFlag_eq (a b : Byte) : notBorrowFlag a b = if a.toNat > b.toNat then 1 else 0 := by
  simp only [notBorrowFlag, flagByte, decide_eq_true_eq]

/-! ### A flag shifted again, as `x = 15` shifts it (R133) -/

theorem shiftRightFlag_shiftRight (v : Byte) : shiftRightFlag v >>> 1 = 0 := by
  apply BitVec.eq_of_toNat_eq
  rw [shiftRight_toNat, shiftRightFlag_toNat]
  exact Nat.div_eq_of_lt (Nat.mod_lt _ (by decide))

theorem shiftLeftFlag_shiftLeft_toNat (v : Byte) : (shiftLeftFlag v <<< 1).toNat = 2 * (v.toNat / 128) := by
  have := v.isLt
  rw [shiftLeft_toNat, shiftLeftFlag_toNat]
  omega

end Sys2Proof.Machine

namespace Sys2Proof.Proofs
open Sys2Proof.Machine

/-- Settles O37: the result reads the registers after the flag write, and a register less itself is 0. -/
theorem subRegisterNotBorrow : Obligations.SubRegisterNotBorrow := by
  intro x y s
  refine ⟨decode_encode (.subReg x y), fun f hf => ?_⟩
  rw [← notBorrowFlag_eq] at hf
  have he : exec (.subReg x y) s = .next ((s.setV VF f).setV x ((s.setV VF f).getV x - (s.setV VF f).getV y)) :=
    hf ▸ rfl
  have hself : f - f = 0 := BitVec.sub_self f
  simpa only [hself] using exec_flag_then_op he

/-- Settles O38: Sub with the operands exchanged, in the flag and in the difference. -/
theorem subnRegisterNotBorrow : Obligations.SubnRegisterNotBorrow := by
  intro x y s
  refine ⟨decode_encode (.subnReg x y), fun f hf => ?_⟩
  rw [← notBorrowFlag_eq] at hf
  have he : exec (.subnReg x y) s = .next ((s.setV VF f).setV x ((s.setV VF f).getV y - (s.setV VF f).getV x)) :=
    hf ▸ rfl
  have hself : f - f = 0 := BitVec.sub_self f
  simpa only [hself] using exec_flag_then_op (op := fun a b => b - a) he

/-- Settles O39: each shift writes the bit it shifts out, then shifts the register as it stands, which is the flag where
`x` is 15. -/
theorem shiftsCaptureBit : Obligations.ShiftsCaptureBit := by
  intro x y s
  refine ⟨decode_encode (.shiftRight x y), decode_encode (.shiftLeft x y), ?_, ?_⟩
  · obtain ⟨t, ht, hframe, hother, hVF⟩ := exec_flag_then_unary (i := .shiftRight x y) (s := s) (op := (· >>> 1)) rfl
    refine ⟨t, ht, hframe, fun hx => ?_, fun hx => (hVF hx).trans (shiftRightFlag_shiftRight _)⟩
    obtain ⟨hflag, hres⟩ := hother hx
    exact ⟨hflag ▸ shiftRightFlag_toNat _, hres ▸ shiftRight_toNat _⟩
  · obtain ⟨t, ht, hframe, hother, hVF⟩ := exec_flag_then_unary (i := .shiftLeft x y) (s := s) (op := (· <<< 1)) rfl
    refine ⟨t, ht, hframe, fun hx => ?_, fun hx => ?_⟩
    · obtain ⟨hflag, hres⟩ := hother hx
      exact ⟨hflag ▸ shiftLeftFlag_toNat _, hres ▸ shiftLeft_toNat _⟩
    · rw [hVF hx, hx, shiftLeftFlag_shiftLeft_toNat]

/-- Settles O34: both handlers are one write, of `kk` or of the sum. -/
theorem immediateLoadsAndAdds : Obligations.ImmediateLoadsAndAdds := by
  intro x kk s
  obtain ⟨t, ht, hres, hframe⟩ := exec_setV (i := .addImm x kk) (s := s) rfl
  exact ⟨decode_encode (.loadImm x kk), decode_encode (.addImm x kk), exec_setV rfl,
    t, ht, hres ▸ BitVec.toNat_add _ _, hframe⟩

/-- Settles O35: each handler is one write of `V[x]`. -/
theorem registerLoadsAndLogic : Obligations.RegisterLoadsAndLogic := fun x y _ =>
  ⟨decode_encode (.loadReg x y), decode_encode (.orReg x y), decode_encode (.andReg x y), decode_encode (.xorReg x y),
    exec_setV rfl, exec_setV rfl, exec_setV rfl, exec_setV rfl⟩

/-- Settles O36: the sum is of the old registers, and is written over the carry where `x` is 15. -/
theorem addRegisterWithCarry : Obligations.AddRegisterWithCarry := by
  intro x y s
  obtain ⟨t, ht, hframe, hres, hflag⟩ := exec_setV_flag (i := .addReg x y) (s := s) rfl
  exact ⟨decode_encode (.addReg x y), t, ht, hres ▸ BitVec.toNat_add _ _,
    fun hx => (hflag hx).trans (carryFlag_eq _ _), hframe⟩

/-- Settles O40: one write of the masked random byte. -/
theorem randomIsMasked : Obligations.RandomIsMasked := fun x kk _ =>
  ⟨decode_encode (.random x kk), exec_setV rfl⟩

end Sys2Proof.Proofs

/-! ## Index register and memory (spec 43_index_memory.md) -/

namespace Sys2Proof.Machine

/-! ### Guarded handlers (R95, R146) -/

section
variable {i : Instr} {s effect : State} {check : Option Fault}

/-- A handler whose check finds no fault has its effect. -/
theorem exec_guarded_none (he : exec i s = s.guarded check i effect) (hcheck : check = none) :
    exec i s = .next effect := by
  subst hcheck; exact he

/-- A handler whose check finds a fault ends in the fault entry and has no effect. -/
theorem exec_guarded_some {c : Fault} (he : exec i s = s.guarded check i effect) (hcheck : check = some c) :
    exec i s = .next (s.faulted c i) := by
  subst hcheck; exact he

end

/-! ### Stores to a checked range (R56, R143, R144) -/

section
variable {i : Instr} {s effect : State} {last : Nat} {vs : List Byte}

/-- The two faults of a store, the range check before the font table's (R146). -/
theorem exec_store_faults (he : exec i s = s.guarded (s.storeFault last) i effect) :
    (¬s.inRange last → exec i s = .next (s.faulted .dataAddressOutOfRange i)) ∧
    (s.inRange last → s.hitsFont last → exec i s = .next (s.faulted .fontWrite i)) :=
  ⟨fun hr => exec_guarded_some he (storeFault_range s last (Nat.lt_of_not_le hr)),
    fun hr hf => exec_guarded_some he (storeFault_hits s last hr hf)⟩

/-- A range of `last + 1` bytes in the memory ends at most at its end. -/
theorem addr_add_length_le (hr : s.inRange last) (hlen : vs.length = last + 1) : s.addr 0 + vs.length ≤ 4096 := by
  have haddr : s.addr 0 = s.I.toNat := rfl
  unfold State.inRange at hr
  omega

theorem read_writeBytes_inRange (hm : s.mem.wf) (hr : s.inRange last) (hlen : vs.length = last + 1) (k : Nat)
    (hk : k < vs.length) : (s.mem.writeBytes (s.addr 0) vs).read (s.I.toNat + k) = vs[k] := by
  have haddr : s.addr 0 = s.I.toNat := rfl
  rw [read_writeBytes _ _ _ _ hm (addr_add_length_le hr hlen), dif_pos (by omega)]
  simp only [haddr, Nat.add_sub_cancel_left]

theorem frame_store_inRange (hm : s.mem.wf) (hr : s.inRange last) (hlen : vs.length = last + 1) :
    Frame { storeAt := s.addr 0, storeLen := last + 1 } s { s with mem := s.mem.writeBytes (s.addr 0) vs } :=
  hlen ▸ frame_store s (s.addr 0) vs hm (addr_add_length_le hr hlen)

end

/-! ### Loads to a range of registers (R145) -/

theorem frame_setRegs (s : State) (i : Nat) (vs : List Byte) (rs : List Reg) (h : i + vs.length ≤ 16)
    (hrs : ∀ x : Reg, i ≤ x.toNat → x.toNat < i + vs.length → x ∈ rs) : Frame { regs := rs } s (s.setRegs i vs) := by
  constructor <;> simp
  intro x hx
  rw [getV_setRegs s i vs h, dif_neg fun hin => hx (hrs x hin.1 hin.2)]

section
variable (s : State) (x : Reg)

/-- The registers after the effect of Load registers. -/
theorem getV_loadRegs (i : Reg) :
    (s.setRegs 0 (s.mem.readBytes (s.addr 0) (x.toNat + 1))).getV i =
      if i.toNat ≤ x.toNat then s.mem.read (s.I.toNat + i.toNat) else s.getV i := by
  have hx := x.isLt
  rw [getV_setRegs _ _ _ (by simp; omega)]
  simp [State.addr]

theorem frame_loadRegs :
    Frame { regs := (List.range (x.toNat + 1)).map (BitVec.ofNat 4) } s
      (s.setRegs 0 (s.mem.readBytes (s.addr 0) (x.toNat + 1))) := by
  have hx := x.isLt
  refine frame_setRegs s 0 _ _ (by simp; omega) fun i _ hi => List.mem_map.mpr ⟨i.toNat, ?_, by simp⟩
  simpa using hi

end

/-! ### Glyph addresses as numbers (R142) -/

/-- The largest glyph address is 432 + 5 * 255, so it is not reduced. -/
theorem spriteAddress_toNat (rom : FontRom) (v : Byte) : (spriteAddress rom v).toNat = rom.base.val + 5 * v.toNat := by
  have hbase := rom.base.isLt
  have hv := v.isLt
  rw [spriteAddress, BitVec.toNat_ofNat]
  omega

end Sys2Proof.Machine

namespace Sys2Proof.Proofs
open Sys2Proof.Machine

/-- Settles O42: the three bytes stored are the decimal digits, each of which fits its byte. -/
theorem storeBcdDigits : Obligations.StoreBcdDigits := by
  intro x s hm
  refine ⟨decode_encode (.storeBcd x), fun hr hf => ?_, exec_store_faults rfl⟩
  have he : exec (.storeBcd x) s = .next { s with mem := s.mem.writeBytes (s.addr 0) (bcdDigits (s.getV x)) } :=
    exec_guarded_none rfl ((storeFault_iff s 2).mpr ⟨hr, hf⟩)
  have hdigit : ∀ (k : Nat) (hk : k < 3),
      ((s.mem.writeBytes (s.addr 0) (bcdDigits (s.getV x))).read (s.I.toNat + k)).toNat =
        ((bcdDigits (s.getV x))[k]'hk).toNat :=
    fun k hk => congrArg BitVec.toNat (read_writeBytes_inRange (vs := bcdDigits (s.getV x)) hm hr rfl k hk)
  have hbyte := (s.getV x).isLt
  refine ⟨_, he, (hdigit 0 (by decide)).trans ?_, (hdigit 1 (by decide)).trans ?_, (hdigit 2 (by decide)).trans ?_,
    frame_store_inRange hm hr rfl⟩ <;>
  exact (BitVec.toNat_ofNat _ _).trans (Nat.mod_eq_of_lt (by omega))

/-- Settles O43: byte `I + i` of the store holds `V[i]`. -/
theorem storeRegistersRange : Obligations.StoreRegistersRange := by
  intro x s hm
  refine ⟨decode_encode (.storeRegs x), fun hr hf => ?_, exec_store_faults rfl⟩
  exact ⟨_, exec_storeRegs_completes hr hf, fun i hi => by simpa using read_writeBytes_regsUpTo hm hr hi,
    frame_store_inRange hm hr (regsUpTo_length s x)⟩

/-- Settles O44: register `i` of the load holds byte `I + i`. -/
theorem loadRegistersRange : Obligations.LoadRegistersRange := by
  intro x s
  refine ⟨decode_encode (.loadRegs x), fun hr => ?_, fun hr => ?_⟩
  · exact ⟨_, exec_guarded_none rfl ((rangeFault_none s x.toNat).mpr hr),
      fun i hi => (getV_loadRegs s x i).trans (if_pos hi),
      fun i hi => (getV_loadRegs s x i).trans (if_neg hi.not_ge), frame_loadRegs s x⟩
  · exact exec_guarded_some rfl (rangeFault_some s x.toNat (Nat.lt_of_not_le hr))

/-- Settles O45: the load reads the bytes the store wrote. -/
theorem loadRestoresStoredRegisters : Obligations.LoadRestoresStoredRegisters := by
  rintro x s t u hm ⟨hr, hf⟩ hstore hmem hI
  obtain ⟨-, hcompletes, -⟩ := storeRegistersRange x s hm
  obtain ⟨t', ht', hstored, -⟩ := hcompletes hr hf
  obtain rfl := Host.Outcome.next.inj (ht'.symm.trans hstore)
  have hru : u.inRange x.toNat := by rwa [State.inRange, hI]
  obtain ⟨-, hload, -⟩ := loadRegistersRange x u
  obtain ⟨r, hexec, hloaded, -⟩ := hload hru
  refine ⟨r, hexec, fun i hi => ?_⟩
  rw [hloaded i hi, hmem, hI, hstored i hi]

/-- Settles O41: a 12-bit address and a glyph address fit 16 bits, and the sum is the word's own. -/
theorem indexWrites : Obligations.IndexWrites := by
  intro x nnn s
  have hsum : (s.I + zextByte (s.getV x)).toNat = (s.I.toNat + (s.getV x).toNat) % 65536 := by
    rw [BitVec.toNat_add, zextByte_toNat]
  exact ⟨decode_encode (.loadIndexImm nnn), decode_encode (.addIndex x), decode_encode (.loadSpriteAddr x),
    ⟨_, rfl, zextAddr_toNat nnn, frame_I s _⟩, ⟨_, rfl, hsum, frame_I s _⟩,
    ⟨_, rfl, spriteAddress_toNat s.mem.rom (s.getV x), frame_I s _⟩⟩

/-- Settles O46: a range of 16 bytes that leaves the memory starts above 0xFF0, and the font table ends below 0x200. -/
theorem addressChecksExclude : Obligations.AddressChecksExclude := by
  rintro s last hlast hout ⟨k, -, -, hfont⟩
  have hbase := s.mem.rom.base.isLt
  unfold State.inRange at hout
  omega

end Sys2Proof.Proofs

/-! ## Display (spec 44_display.md) -/

namespace Sys2Proof.Machine

theorem frame_screen (s : State) (gb : FrameBuffer) : Frame { screen := true } s { s with fb := gb } := by
  constructor <;> simp

section
variable {s : State} {x y : Reg} {n : Nibble}

theorem exec_drawSprite_completes (h : s.Completes (.drawSprite x y n)) :
    exec (.drawSprite x y n) s = .next (s.drawSprite x y n) :=
  exec_guarded_none rfl ((drawFault_iff s n).mpr h)

/-- A draw that completes ends in its effect. -/
theorem eq_drawSprite_of_exec {t : State} (h : s.Completes (.drawSprite x y n))
    (he : exec (.drawSprite x y n) s = .next t) : t = s.drawSprite x y n :=
  Host.Outcome.next.inj (he.symm.trans (exec_drawSprite_completes h))

end

section
variable (s : State) (x y : Reg) (n : Nibble)

/-- A draw writes V[15] and the screen alone (R151). -/
theorem frame_drawSprite : Frame { regs := [15], screen := true } s (s.drawSprite x y n) :=
  { frame_setV s VF _ [15] (List.mem_singleton_self VF) with screen := nofun }

/-- Without a collision the flag ends 0 (R151). -/
theorem drawSprite_flag_zero (h : ∀ r c, s.spriteBit x y n r c = true → s.fb.pixel r c = false) :
    (s.drawSprite x y n).getV 15 = 0 := by
  obtain ⟨hbit, hone⟩ := drawSprite_flag s x y n
  refine hbit.resolve_left fun h1 => ?_
  obtain ⟨r, c, hset, hon⟩ := hone.mp h1
  exact absurd (hon.symm.trans (h r c hset)) (by decide)

/-- A draw changes the pixels on which the sprite has a set bit (R151). -/
theorem drawSprite_pixel_ne (r c : Nat) :
    (s.drawSprite x y n).fb.pixel r c ≠ s.fb.pixel r c ↔ s.spriteBit x y n r c = true := by
  rw [drawSprite_pixel]
  cases s.fb.pixel r c <;> simp

/-- A draw leaves `I` and memory, so it leaves the sprite's bits where its start position is the same cell (R153). -/
theorem spriteBit_drawSprite
    (hx : ((s.drawSprite x y n).getV x).toNat % 64 = (s.getV x).toNat % 64)
    (hy : ((s.drawSprite x y n).getV y).toNat % 32 = (s.getV y).toNat % 32) (r c : Nat) :
    (s.drawSprite x y n).spriteBit x y n r c = s.spriteBit x y n r c := by
  have hI : (s.drawSprite x y n).I = s.I := rfl
  have hmem : (s.drawSprite x y n).mem = s.mem := rfl
  simp only [State.spriteBit, hx, hy, hI, hmem]

/-- The screen cell of the sprite's row `i` and column `j` shows that bit of the sprite, unless it is clipped (R151,
R152). -/
theorem spriteBit_iff (r c : Nat) : s.spriteBit x y n r c = true ↔
    ∃ i < n.toNat, ∃ j < 8, ((s.mem.read (s.I.toNat + i)).getLsbD (7 - j) = true ∧
      (s.getV y).toNat % 32 + i ≤ 31 ∧ (s.getV x).toNat % 64 + j ≤ 63) ∧
      (s.getV y).toNat % 32 + i = r ∧ (s.getV x).toNat % 64 + j = c := by
  simp only [State.spriteBit, Bool.and_eq_true, decide_eq_true_eq]
  constructor
  · rintro ⟨⟨hr, hc, hyr, hrn, hxc, hc8⟩, hset⟩
    exact ⟨r - (s.getV y).toNat % 32, by omega, c - (s.getV x).toNat % 64, by omega,
      ⟨hset, by omega, by omega⟩, by omega, by omega⟩
  · rintro ⟨i, hi, j, hj, ⟨hset, hrow, hcol⟩, rfl, rfl⟩
    exact ⟨by omega, by simpa only [Nat.add_sub_cancel_left] using hset⟩

end

end Sys2Proof.Machine

namespace Sys2Proof.Proofs
open Sys2Proof.Machine

/-- Settles O47: the handler stores the framebuffer with every pixel off. -/
theorem clearDisplayClears : Obligations.ClearDisplayClears := fun u s =>
  ⟨decode_encode (.clearDisplay u), _, rfl, pixel_allOff, frame_screen s FrameBuffer.allOff⟩

/-- Settles O48: the cells the handler toggles are those of the sprite's set bits, and its flag is their collision. -/
theorem drawXorsSprite : Obligations.DrawXorsSprite := by
  intro x y n s
  refine ⟨decode_encode (.drawSprite x y n), fun hr => ?_, fun hn hr => ?_⟩
  · obtain ⟨-, hflag⟩ := drawSprite_flag s x y n
    exact ⟨_, exec_drawSprite_completes hr, drawSprite_pixel s x y n, hflag.mpr, drawSprite_flag_zero s x y n,
      frame_drawSprite s x y n⟩
  · exact exec_guarded_some rfl (drawFault_range s n hn hr)

/-- Settles O49: the second draw has the bits of the first, so its xor undoes it, and its collisions are the set bits
that the first draw left on, which it turned on. -/
theorem drawTwiceRestores : Obligations.DrawTwiceRestores := by
  intro x y n s t hc he
  obtain rfl := eq_drawSprite_of_exec hc he
  refine ⟨fun hx hy => ?_, fun hclear => drawSprite_flag_zero s x y n fun r c _ => hclear r c⟩
  have hbits := spriteBit_drawSprite s x y n hx hy
  obtain ⟨-, hflag⟩ := drawSprite_flag (s.drawSprite x y n) x y n
  refine ⟨_, exec_drawSprite_completes (s := s.drawSprite x y n) hc, framebuffer_ext _ _ fun r c => ?_, hflag.trans ?_⟩
  · rw [drawSprite_pixel, hbits, drawSprite_pixel, Bool.xor_assoc, Bool.xor_self, Bool.xor_false]
  · refine exists_congr fun r => exists_congr fun c => ?_
    rw [hbits, drawSprite_pixel]
    cases s.fb.pixel r c <;> simp

/-- Settles O50: row `i` and column `j` of the sprite go to the screen cell at that distance from the start, which is a
bijection from the set bits that are not clipped to the changed pixels. -/
theorem drawChangesVisibleBits : Obligations.DrawChangesVisibleBits := by
  intro x y n s t hc he
  obtain rfl := eq_drawSprite_of_exec hc he
  simp only [drawSprite_pixel_ne]
  symm
  refine Finset.card_bij (fun p _ => ((s.getV y).toNat % 32 + p.1, (s.getV x).toNat % 64 + p.2)) ?_ ?_ ?_
  · rintro ⟨i, j⟩ hp
    simp only [Finset.mem_filter, Finset.mem_product, Finset.mem_range] at hp ⊢
    obtain ⟨⟨hi, hj⟩, hvis⟩ := hp
    exact ⟨by omega, (spriteBit_iff s x y n _ _).mpr ⟨i, hi, j, hj, hvis, rfl, rfl⟩⟩
  · rintro ⟨i, j⟩ - ⟨k, l⟩ - heq
    simpa using heq
  · rintro ⟨r, c⟩ hp
    obtain ⟨-, hbit⟩ := Finset.mem_filter.mp hp
    obtain ⟨i, hi, j, hj, hvis, hr, hcol⟩ := (spriteBit_iff s x y n r c).mp hbit
    refine ⟨(i, j), ?_, Prod.ext hr hcol⟩
    simp only [Finset.mem_filter, Finset.mem_product, Finset.mem_range]
    exact ⟨⟨hi, hj⟩, hvis⟩

end Sys2Proof.Proofs

/-! ## Keypad and timers (spec 45_keypad_timers.md) -/

namespace Sys2Proof.Machine

theorem frame_DT (s : State) (v : Byte) : Frame { delay := true } s { s with DT := v } := by
  constructor <;> simp

theorem frame_ST (s : State) (v : Byte) : Frame { sound := true } s { s with ST := v } := by
  constructor <;> simp

section
variable {i : Instr} {s : State} {x : Reg} {b : Bool}

/-! ### Key skips (R160, R161) -/

/-- A key skip on the test `b` skips exactly when the test holds, for the index of a key. -/
theorem exec_keySkip {P Q : Prop} (he : exec i s = s.guarded (keyFault (s.getV x)) i (s.skipIf b))
    (hkey : (s.getV x).toNat ≤ 15) (hP : P → b = true) (hQ : Q → b = false) :
    ∃ t, exec i s = .next t ∧ Frame { pc := true } s t ∧ (P → t.pc = s.pc + 2) ∧ (Q → t.pc = s.pc) := by
  obtain ⟨t, ht, hskip, hstay, hframe⟩ := exec_skip (exec_guarded_none he (keyFault_none _ hkey)) hP hQ
  exact ⟨t, ht, hframe, hskip, hstay⟩

/-! ### Wait for key (R163) -/

theorem exec_waitKey_of_some {k : Nat} (h : s.lowestKey = some k) :
    exec (.waitKey x) s = .next (s.setV x (BitVec.ofNat 8 k)) := by
  simp only [exec, execWaitKey, h]

theorem exec_waitKey_of_none (h : s.lowestKey = none) :
    exec (.waitKey x) s = .next { s with pc := s.pc - 2 } := by
  simp only [exec, execWaitKey, h]

end

end Sys2Proof.Machine

namespace Sys2Proof.Proofs
open Sys2Proof.Machine

/-- Settles O52: a key index fits a byte, and the scan over no pressed key finds none. -/
theorem waitForKeyPolls : Obligations.WaitForKeyPolls := by
  refine fun x s => ⟨decode_encode (.waitKey x), fun k hk hdown hlowest => ?_, fun hnone => ?_⟩
  · obtain ⟨t, ht, hres, hframe⟩ := exec_setV (exec_waitKey_of_some (x := x) (lowestKey_some s k hk hdown hlowest))
    have hbyte : (BitVec.ofNat 8 k).toNat = k := (BitVec.toNat_ofNat k 8).trans (Nat.mod_eq_of_lt (by omega))
    exact ⟨t, ht, hres ▸ hbyte, hframe⟩
  · exact ⟨_, exec_waitKey_of_none (lowestKey_none s hnone), rfl, frame_pc s _⟩

/-- Settles O53: the handler takes back the advance of `pc`, and the end of the step lowers the timers. -/
theorem waitForKeyStepRewinds : Obligations.WaitForKeyStepRewinds := by
  intro x s hrun hfetch hnone
  have he : exec (.waitKey x) s.advance = .next { s.advance with pc := s.advance.pc - 2 } :=
    exec_waitKey_of_none (lowestKey_none s.advance hnone)
  have hpc : s.pc + 2 - 2 = s.pc := BitVec.add_sub_cancel s.pc 2
  exact ⟨_, step_of_completed s _ _ _ hrun hfetch (decode_encode (.waitKey x)) he hrun, hrun, hpc, fun _ => rfl,
    tickDown_toNat s.DT, tickDown_toNat s.ST⟩

/-- Settles O51: each handler is a skip on the key of the whole byte, or on its negation, behind the index check. -/
theorem keySkips : Obligations.KeySkips := fun x _ =>
  ⟨decode_encode (.skipKeyPressed x), decode_encode (.skipKeyNotPressed x),
    fun hkey => ⟨exec_keySkip rfl hkey id id, exec_keySkip rfl hkey (congrArg not) (congrArg not)⟩,
    fun hout => ⟨exec_guarded_some rfl (keyFault_some _ hout), exec_guarded_some rfl (keyFault_some _ hout)⟩⟩

/-- Settles O54: one write of `V[x]`, of `DT` and of `ST`. -/
theorem timerMoves : Obligations.TimerMoves := fun x s =>
  ⟨decode_encode (.loadFromDelay x), decode_encode (.setDelay x), decode_encode (.setSound x),
    exec_setV rfl, ⟨_, rfl, rfl, frame_DT s _⟩, ⟨_, rfl, rfl, frame_ST s _⟩⟩

end Sys2Proof.Proofs

/-! ## The conditions of the faults and their codes (spec 60_exceptions.md) -/

namespace Sys2Proof.Machine

section
variable {s t : State} {i : Instr}

/-- The record a fault of the fetch or of the decode writes stops the core. -/
theorem takeFault_not_running (s : State) (c : Fault) (pc op : Word) : ¬(s.takeFault c pc op).Running :=
  Option.some_ne_none _

/-- No condition of R170 reads `pc`, which the step advances before the handler (R92). -/
theorem advance_completes (s : State) (i : Instr) : s.advance.Completes i ↔ s.Completes i :=
  Iff.rfl

/-- The end of a step neither raises nor clears a fault. -/
theorem finish_running (s : State) : s.finish.Running ↔ s.Running := by
  by_cases h : s.Running
  · rw [finish_of_running s h]
    rfl
  · rw [finish_of_fault s (Option.isSome_iff_ne_none.mpr h)]

theorem exec_answers_next (i : Instr) (s : State) : ∃ t, exec i s = .next t := by
  rcases exec_completesOrFaults i s with ⟨-, t, h, -⟩ | ⟨-, c, h⟩
  · exact ⟨t, h⟩
  · exact ⟨_, h⟩

/-- A running core's handler completes exactly under its own condition of R170. -/
theorem exec_running_iff (hrun : s.Running) (h : exec i s = .next t) : t.Running ↔ s.Completes i := by
  rcases exec_next_cases h with ⟨hc, hw⟩ | ⟨hc, c, rfl⟩
  · exact iff_of_true (hw.fault.trans hrun) hc
  · exact iff_of_false (Option.some_ne_none _) hc

/-- The step of a known word completes exactly when the word's handler does. -/
theorem step_running_iff_of_decoded {op : Word} (hrun : s.Running) (hf : s.fetch = some op)
    (hd : decode op = some i) (h : step s = .next t) : t.Running ↔ s.Completes i := by
  obtain ⟨u, hu⟩ := exec_answers_next i s.advance
  obtain rfl := step_next_unique h (step_of_decoded s op i u hrun hf hd hu)
  rw [finish_running, exec_running_iff (s := s.advance) hrun hu, advance_completes]

end

/-- The causes in the order of detection (R170). -/
def faultsInOrder : List Fault :=
  [.fetchOutOfRange, .unknownOpcode, .stackOverflow, .stackUnderflow, .dataAddressOutOfRange, .fontWrite,
    .keyIndexOutOfRange]

/-- R170 lists every cause. -/
theorem mem_faultsInOrder (c : Fault) : c ∈ faultsInOrder := by
  cases c <;> decide

/-- A cause's code is its place in the order of detection (R170, D8). -/
theorem map_faultCode_faultsInOrder : faultsInOrder.map faultCode = List.range' 1 7 := rfl

theorem faultCode_bounds (c : Fault) : 1 ≤ faultCode c ∧ faultCode c ≤ 7 := by
  have hmem : faultCode c ∈ List.range' 1 7 :=
    map_faultCode_faultsInOrder ▸ List.mem_map_of_mem (mem_faultsInOrder c)
  rw [List.mem_range'_1] at hmem
  omega

theorem faultCode_injective : Function.Injective faultCode := fun c d h =>
  List.inj_on_of_nodup_map (map_faultCode_faultsInOrder ▸ List.nodup_range') (mem_faultsInOrder c)
    (mem_faultsInOrder d) h

end Sys2Proof.Machine

namespace Sys2Proof.Proofs
open Sys2Proof.Machine

/-- Settles O9: the fetched word has no handler, so the step is the fault of the decode. -/
theorem unknownOpcodeFaults : Obligations.UnknownOpcodeFaults :=
  fun s hrun hpc hd => step_of_unknown s _ hrun (fetch_some s hpc) hd

/-- Settles O13: the fetch, the decode and the handler are the three places where a step can fault. -/
theorem stepCompletesExactlyWhen : Obligations.StepCompletesExactlyWhen := by
  intro s t hrun h
  by_cases hpc : s.pc.toNat ≤ 0xFFE
  · cases hd : decode (s.mem.read s.pc.toNat ++ s.mem.read (s.pc.toNat + 1)) with
    | none =>
      obtain rfl := step_next_unique h (unknownOpcodeFaults s hrun hpc hd)
      exact iff_of_false (takeFault_not_running s _ _ _) (by simp)
    | some i => simp [step_running_iff_of_decoded hrun (fetch_some s hpc) hd h, hpc]
  · obtain rfl := step_next_unique h (fetchOutOfRangeFaults s hrun (Nat.lt_of_not_le hpc))
    exact iff_of_false (takeFault_not_running s _ _ _) fun hc => hpc hc.1

/-- Settles O14: the causes in the order of detection have the codes 1 to 7, and they are all the causes. -/
theorem faultCodesAreOneToSeven : Obligations.FaultCodesAreOneToSeven :=
  ⟨map_faultCode_faultsInOrder, fun c =>
    ⟨(faultCode_bounds c).1, (faultCode_bounds c).2, fun _ h => faultCode_injective h⟩⟩

end Sys2Proof.Proofs

/-! ## Reset, load and launch (spec 70_reset_and_hazards.md) -/

namespace Sys2Proof.Machine

/-- The state with the image copied to 0x200 onward (R201). -/
def State.loaded (s : State) (image : List Byte) : State := { s with mem := s.mem.writeBytes 0x200 image }

theorem hostReset_mem_wf (s : State) : s.hostReset.mem.wf := reset_memory_wf s.mem.rom

/-- A reset memory holds 0 from 0x200 onward (R33, R51). -/
theorem hostReset_read_program (s : State) {a : Nat} (h : 0x200 ≤ a) : s.hostReset.mem.read a = 0 :=
  (resetWith_read s.mem.rom a).trans (unlisted_program _ a h)

section
variable {s : State} {image : List Byte}

theorem loadImage_of_fits (h : image.length ≤ 3584) : s.loadImage image = .next (s.loaded image) :=
  if_neg (Nat.not_lt.mpr h)

theorem loadImage_of_too_long (h : 3584 < image.length) : s.loadImage image = .refused .imageTooLarge :=
  if_pos h

theorem loaded_read_image (hm : s.mem.wf) (hlen : image.length ≤ 3584) (k : Nat) (h : k < image.length) :
    (s.loaded image).mem.read (0x200 + k) = image[k] := by
  simp [State.loaded, read_writeBytes s.mem 0x200 _ image hm (by omega), h]

theorem loaded_read_outside (hm : s.mem.wf) (hlen : image.length ≤ 3584) (a : Nat)
    (h : a < 0x200 ∨ 0x200 + image.length ≤ a) : (s.loaded image).mem.read a = s.mem.read a := by
  have hout : ¬(0x200 ≤ a ∧ a < 0x200 + image.length) := by omega
  exact (read_writeBytes s.mem 0x200 a image hm (by omega)).trans (dif_neg hout)

theorem launch_of_fits (h : image.length ≤ 3584) :
    s.launch image = .next (s.hostReset.loaded image).supplyInputs := by
  rw [State.launch, loadImage_of_fits h]

/-- The first fetch after launch is the word at 0x200 (R202). -/
theorem launched_fetch : (s.hostReset.loaded image).supplyInputs.fetch =
    some (wordOfBytes ((s.hostReset.loaded image).mem.read 0x200) ((s.hostReset.loaded image).mem.read 0x201)) :=
  fetch_some _ (by decide : (0x200 : Word).toNat ≤ 0xFFE)

end

end Sys2Proof.Machine

namespace Sys2Proof.Proofs
open Sys2Proof.Machine

/-- Settles O25: the copy is one run of writes, which reaches the end of the memory at most. -/
theorem loadCopiesImage : Obligations.LoadCopiesImage := fun s image hm =>
  ⟨fun hlen => ⟨s.loaded image, loadImage_of_fits hlen, rfl, writeBytes_rom _ _ _, loaded_read_image hm hlen,
    loaded_read_outside hm hlen⟩, loadImage_of_too_long⟩

/-- Settles O26: the first fetch reads the image's first two bytes, or two zeros of the reset memory, which are the word
of no instruction. -/
theorem launchRunsImage : Obligations.LaunchRunsImage := by
  intro s hi lo rest hrest
  constructor
  · have hlen : (hi :: lo :: rest).length ≤ 3584 := Nat.add_le_add_right hrest 2
    have hread := loaded_read_image (hostReset_mem_wf s) hlen
    refine ⟨_, launch_of_fits hlen, rfl, rfl, launched_fetch.trans ?_⟩
    exact congrArg some (congrArg₂ wordOfBytes (hread 0 (by simp)) (hread 1 (by simp)))
  · have hfetch : (s.hostReset.loaded []).supplyInputs.fetch = some 0 :=
      launched_fetch.trans (congrArg some (congrArg₂ wordOfBytes
        (hostReset_read_program s (by omega)) (hostReset_read_program s (by omega))))
    exact ⟨_, launch_of_fits (by simp), step_of_unknown _ 0 rfl hfetch (by decide)⟩

/-- Settles O24: the reset state of the machine's own font ROM, whose invariants do not speak of the pending samples. -/
theorem hostResetReinitialises : Obligations.HostResetReinitialises := fun s =>
  have hinv := resetMeetsInvariants s.mem.rom
  ⟨rfl, hinv.of_eq rfl rfl rfl hinv.pcBound, rfl, rfl, rfl⟩

end Sys2Proof.Proofs
